-- ==== Sys2Proof/Syntax.lean ====
section
/-! DEFINITION. The five commands of spec/opcode_table.json (30_encoding.md R95). Operands are the natural numbers
of R96 ("zero-extended to a natural number"); WellFormed.lean says which of them a field can hold. -/

namespace Sys2Proof

/-- One constructor per row of the opcode table. -/
inductive Instr where
  /-- NOP (40_construct.md R120). -/
  | nop
  /-- CONSTRUCT size, hashCount (40_construct.md R122). -/
  | construct (size hashCount : Nat)
  /-- CHAR code (41_hash_pipeline.md R143). -/
  | char (code : Nat)
  /-- INSERT (42_bitarray.md R161). -/
  | insert
  /-- QUERY (42_bitarray.md R168). -/
  | query
  deriving DecidableEq, Repr

end Sys2Proof
end

