-- ==== Sys2Proof/WellFormed.lean ====
section
/-! DEFINITION. Which commands can be encoded: every operand inside its field's range (30_encoding.md R96, R110: "An
operand outside its field range is an assembly error"). The narrower range CONSTRUCT accepts is checked when it
executes (40_construct.md R123), not here. -/

namespace Sys2Proof

/-- SZ is 20 bits wide (R94): 0 ≤ size < 2^20. -/
def sizeFits (size : Nat) : Bool := decide (size < 2 ^ 20)

/-- HC is 8 bits wide (R94): 0 ≤ hashCount < 2^8. -/
def hashCountFits (hashCount : Nat) : Bool := decide (hashCount < 2 ^ 8)

/-- CODE is 21 bits wide (R94): 0 ≤ code < 2^21. -/
def codeFits (code : Nat) : Bool := decide (code < 2 ^ 21)

/-- Every operand fits its field. -/
def Instr.wellFormed : Instr → Bool
  | .nop => true
  | .construct size hashCount => sizeFits size && hashCountFits hashCount
  | .char code => codeFits code
  | .insert => true
  | .query => true

end Sys2Proof
end

