-- ==== Sys2Proof/Word.lean ====
section
/-! DEFINITION. The word type of the two ports (30_encoding.md R90): one 32-bit word crosses a port whole
(20_memory.md R62), and its bit 0 is the least significant bit (00_scope.md R10). -/

namespace Sys2Proof

/-- A command word or a response word (30_encoding.md R90). -/
abbrev Word := BitVec 32

end Sys2Proof
end

