-- ==== Sys2Proof/Decode.lean ====
section
/-! DEFINITION. The decoder of 30_encoding.md R98, total on all 2^32 words, and the encoder written from the format
tables of R94 and the opcode map of R95. -/

namespace Sys2Proof

/-- `w[hi:lo]`, read as an unsigned number (00_scope.md R10). -/
def field (w : Word) (hi lo : Nat) : Nat := w.toNat / 2 ^ lo % 2 ^ (hi + 1 - lo)

/-- Why the decoder rejects a word (R97, R98). -/
inductive Illegal where
  /-- OPC is 0x5 to 0xF (R97(a)). -/
  | opcReserved
  /-- A RES field of format Z or X is not 0 (R97(b)). -/
  | fieldNonzero
  deriving DecidableEq, Repr

/-- The decoder's answer, `Cmd ⊎ Illegal(info)` of R98. -/
inductive Decoded where
  | cmd (i : Instr)
  | illegal (why : Illegal)
  deriving DecidableEq, Repr

/-- A command whose reserved field holds `res`: illegal unless the field is 0 (R97(b)). -/
def reservedZero (res : Nat) (i : Instr) : Decoded :=
  if res = 0 then .cmd i else .illegal .fieldNonzero

/-- R98. The opcode is examined first (60_exceptions.md R207). -/
def decode (w : Word) : Decoded :=
  match field w 31 28 with
  | 0x0 => reservedZero (field w 27 0) .nop
  | 0x1 => .cmd (.construct (field w 19 0) (field w 27 20))
  | 0x2 => reservedZero (field w 27 21) (.char (field w 20 0))
  | 0x3 => reservedZero (field w 27 0) .insert
  | 0x4 => reservedZero (field w 27 0) .query
  | _ => .illegal .opcReserved

/-- A word with `opc` in bits 31..28 and `rest` in bits 27..0. -/
def opcodeWord (opc rest : Nat) : Word := BitVec.ofNat 32 (opc * 2 ^ 28 + rest)

/-- The word of a well-formed command: formats Z, C and X of R94 with the opcodes of R95. -/
def encode : Instr → Word
  | .nop => opcodeWord 0x0 0
  | .construct size hashCount => opcodeWord 0x1 (hashCount * 2 ^ 20 + size)
  | .char code => opcodeWord 0x2 code
  | .insert => opcodeWord 0x3 0
  | .query => opcodeWord 0x4 0

/-- The instruction the decoder reads from the bits `w` of an opcode-table row of `nbits` bits: every bit above `nbits`
is 0, and a value that does not fit the one 32-bit word of a command (R93) is no command. -/
def decodeTableWord (nbits w : Nat) : Option Instr :=
  let bits := w % 2 ^ nbits
  if bits < 2 ^ 32 then
    match decode (BitVec.ofNat 32 bits) with
    | .cmd i => some i
    | .illegal _ => none
  else none

end Sys2Proof
end

