-- ==== Sys2Proof/Machine/Flags.lean ====
section
/-! DEFINITION. The BFE has no flag register (10_state.md R41): what other machines put in flags is here the STATUS, INFO
and RESULT fields of the response word (30_encoding.md R104 to R107; 60_exceptions.md R201). -/

namespace Sys2Proof.Machine

/-- STATUS (R105, R201). The codes 3 to 15 do not exist. -/
inductive Status where
  | ok
  | invalidConfiguration
  | illegalCommand
  deriving DecidableEq, Repr

/-- The 4-bit code of a status (R105). -/
def Status.code : Status → Nat
  | .ok => 0
  | .invalidConfiguration => 1
  | .illegalCommand => 2

/-- The errors `raise` takes (00_scope.md R12; 60_exceptions.md R203). -/
inductive Err where
  | invalidConfiguration
  | illegalCommand
  deriving DecidableEq, Repr

/-- The status that reports an error (60_exceptions.md R201). -/
def Err.status : Err → Status
  | .invalidConfiguration => .invalidConfiguration
  | .illegalCommand => .illegalCommand

/-- The INFO bits (R106): response bits 8, 9, 10 and 11. -/
structure Info where
  sizeBad      : Bool := false
  hcBad        : Bool := false
  opcReserved  : Bool := false
  fieldNonzero : Bool := false
  deriving DecidableEq, Repr

/-- "Every INFO bit is 0 unless stated" (R106). -/
def Info.none : Info := {}

/-- INFO as the 4-bit field [11:8], bit 8 its least significant bit (R106). -/
def Info.code (info : Info) : Nat :=
  info.sizeBad.toNat + 2 * info.hcBad.toNat + 4 * info.opcReserved.toNat + 8 * info.fieldNonzero.toNat

/-- The INFO a word the decoder rejects is answered with (60_exceptions.md R206). -/
def illegalInfo : Illegal → Info
  | .opcReserved => { opcReserved := true }
  | .fieldNonzero => { fieldNonzero := true }

/-- The response word `{opc, 0 (16 bits), info (4), status (4), 0 (3), result (1)}` of R104. -/
def responseWord (opc : BitVec 4) (status : Status) (info : Info) (result : Bool) : Word :=
  BitVec.ofNat 32
    (opc.toNat * 2 ^ 28 + info.code * 2 ^ 8 + status.code * 2 ^ 4 + result.toNat)

end Sys2Proof.Machine
end

