-- ==== Sys2Proof/Config.lean ====
section
/-! DEFINITION. The parameters of 00_scope.md R7: "the only values that may differ between implementations". -/

namespace Sys2Proof

/-- The engine's parameters with the constraints of 00_scope.md R7. They are data, not constants, so every
statement over all states is a statement over all parameter instances (93_implementation_defined.md U9, U13:
treatment `parameter`). -/
structure Params where
  /-- `SIZE_MAX`: bit-array slots built, and the largest accepted `size`. -/
  sizeMax  : Nat
  /-- `HC_MAX`: hash lanes built, and the largest accepted `hashCount`. -/
  hcMax    : Nat
  /-- `RSP_DEPTH`: responses held undelivered before the engine stops accepting commands. -/
  rspDepth : Nat
  sizeMax_ge  : 1000 ≤ sizeMax
  sizeMax_le  : sizeMax ≤ 1048575
  hcMax_ge    : 5 ≤ hcMax
  hcMax_le    : hcMax ≤ 255
  rspDepth_ge : 1 ≤ rspDepth
  deriving DecidableEq, Repr

/-- The nominal values of R7, used by the spec's vectors (log entry 2). -/
def Params.nominal : Params :=
  ⟨1048575, 255, 1, by decide, by decide, by decide, by decide, by decide⟩

/-- The smallest legal instance, which vectors V-CON-9 to V-CON-13 of 95_test_vectors.md take; its RSP_DEPTH is the
nominal 1. -/
def Params.smallest : Params :=
  ⟨1000, 5, 1, by decide, by decide, by decide, by decide, by decide⟩

/-- `CHAR_ENCODING` (00_scope.md R7, R8): how the host turns a string into character codes below 2^21. It is
host-side and no engine state: only the assembler takes it, as an argument. A string is its list of characters
(log entry 12). -/
structure CharEncoding where
  codes : List Char → List Nat
  codes_lt : ∀ cs, ∀ c ∈ codes cs, c < 2 ^ 21

/-- A Unicode code point fits the CODE field (92_eei_decisions.md D7: "21 bits holds U+10FFFF"). -/
theorem Char.toNat_lt_code_field (c : Char) : c.toNat < 2 ^ 21 := by
  have h : c.toNat.isValidChar := c.valid
  rcases h with h | h <;> omega

/-- The nominal encoding of R7: one code per character, the Unicode code point. -/
def CharEncoding.codePoints : CharEncoding where
  codes cs := cs.map Char.toNat
  codes_lt := by
    intro cs c hc
    obtain ⟨ch, -, rfl⟩ := List.mem_map.mp hc
    exact Char.toNat_lt_code_field ch

end Sys2Proof
end

