-- ==== Sys2Proof/Machine/State.lean ====
section
/-! DEFINITION. The machine's state, complete by 10_state.md R29, its reset value (70_reset_and_hazards.md R231) and
the reasons a step can stop. -/

namespace Sys2Proof.Machine

/-- SIZE (10_state.md R33): 20 bits, never 0. A state with SIZE = 0 cannot be written down (40_construct.md R127). -/
structure SizeReg where
  value : BitVec 20
  pos   : 0 < value.toNat
  deriving DecidableEq, Repr

/-- HASHCOUNT (10_state.md R34): 8 bits, never 0 (40_construct.md R127). -/
structure HashCountReg where
  value : BitVec 8
  pos   : 0 < value.toNat
  deriving DecidableEq, Repr

/-- One lane register ACC[j] (10_state.md R36): 20 bits, unsigned. -/
abbrev Lane := BitVec 20

/-- The bit array (10_state.md R38; 20_memory.md R60): pairs of a slot index and the slot's bit, the unit of addressing.
An unlisted slot reads 0, its reset value. Canonical form: `Memory.wf`. -/
abbrev Memory := List (Nat × BitVec 1)

/-- What the host drives on the input pins at one rising edge of `clk` (30_encoding.md R90). -/
structure HostEdge where
  rst      : Bool
  cmdValid : Bool
  cmdData  : Word
  rspReady : Bool
  deriving DecidableEq, Repr

/-- The state. `size` to `rq` are the rows of R29; `n` is the stream position of R31. -/
structure State where
  /-- The parameters of 00_scope.md R7: an argument of every step, never written (log entry 1). -/
  params    : Params
  /-- SIZE (R33). -/
  size      : SizeReg
  /-- HASHCOUNT (R34). -/
  hashCount : HashCountReg
  /-- ACC[1..HC_MAX], ACC[1] first (R36, R37). -/
  acc       : List Lane
  /-- BITS[0..SIZE_MAX-1] (R38). -/
  bits      : Memory
  /-- RQ, oldest first (R44). -/
  rq        : List Word
  /-- The position of the next command in the stream (R31), a model quantity. -/
  n         : Nat
  /-- The coming rising edges, next first: the host's side of the ports, no state of the engine (log entry 3). -/
  port      : List HostEdge
  /-- The responses the host has taken since the last reset, oldest first: the observation of
  70_reset_and_hazards.md R247 (log entry 8). -/
  taken     : List Word
  deriving DecidableEq, Repr

/-- The machine's only fault. The hardware has none (93_implementation_defined.md: no `fault` behaviour). -/
inductive Fault where
  /-- Raised by INSERT and QUERY when an active lane holds an index at or above SIZE_MAX, a slot that is not in the address
  space (20_memory.md R60). Safe: it stops where no effect is stated, and no state that meets the invariant
  reaches it (41_hash_pipeline.md R146; log entry 7). -/
  | noSuchSlot (index : Nat)
  deriving DecidableEq, Repr

/-- Reasons an instruction has no meaning. -/
inductive Refusal where
  /-- Raised by `exec` for an instruction not modelled yet: no instruction of this model. Safe. -/
  | notModelled (mnemonic : String)
  deriving DecidableEq, Repr

/-- The reset state for given parameters: a filter with D00's defaults (R231). -/
def State.resetWith (p : Params) : State where
  params    := p
  size      := ⟨100, by decide⟩
  hashCount := ⟨3, by decide⟩
  acc       := List.replicate p.hcMax 0
  bits      := []
  rq        := []
  n         := 0
  port      := []
  taken     := []

/-- The machine right after reset (R231), at the nominal parameters (log entry 2). -/
def State.reset : State := State.resetWith Params.nominal

end Sys2Proof.Machine
end

