-- ==== Sys2Proof/Machine/Ops.lean ====
section
/-! DEFINITION. The named operations over the state: the pseudocode primitives of 00_scope.md R12, the accessors of the
lanes and slots, the two port handshakes (30_encoding.md R91, R92) and raising an error (60_exceptions.md R203), which is
all the BFE has in the place of an exception (R208). -/

namespace Sys2Proof.Machine

/-! ### The bit array as a memory of one-bit slots -/

/-- The slot `i`; an unlisted slot is 0 (10_state.md R38). -/
def Memory.read : Memory → Nat → BitVec 1
  | [], _ => 0
  | (a, v) :: m, i => if a = i then v else Memory.read m i

/-- Put `v` into slot `i`, keeping the canonical form: indices rise, and a slot that is 0 is not listed. -/
def Memory.write : Memory → Nat → BitVec 1 → Memory
  | [], i, v => if v = 0 then [] else [(i, v)]
  | (a, x) :: m, i, v =>
    if i < a then (if v = 0 then (a, x) :: m else (i, v) :: (a, x) :: m)
    else if i = a then (if v = 0 then m else (i, v) :: m)
    else (a, x) :: Memory.write m i v

/-- The canonical form: slot indices strictly rising, and no listed slot holds 0. -/
abbrev Memory.wf (m : Memory) : Prop :=
  m.Pairwise (fun c d => c.1 < d.1) ∧ ∀ c ∈ m, c.2 ≠ 0

/-! ### Registers -/

/-- SIZE as the natural number the pseudocode computes with (00_scope.md R11). -/
def State.sizeNat (s : State) : Nat := s.size.value.toNat

/-- HASHCOUNT as a natural number. -/
def State.hcNat (s : State) : Nat := s.hashCount.value.toNat

/-- ACC[j]; 0 for j = 0 and above the lanes built (10_state.md R45). -/
def State.lane (s : State) (j : Nat) : Lane :=
  if j = 0 then 0 else s.acc.getD (j - 1) 0

/-- `for j in 1..HC_MAX: ACC[j] <- 0`, the item boundary (41_hash_pipeline.md R141). -/
def State.clearLanes (s : State) : State :=
  { s with acc := List.replicate s.params.hcMax 0 }

/-! ### MemRead and MemWrite (00_scope.md R12) -/

/-- `MemRead(i, 1)`. -/
def State.memRead (s : State) (i : Nat) : BitVec 1 := s.bits.read i

/-- `MemWrite(i, 1, v)`. -/
def State.memWrite (s : State) (i : Nat) (v : BitVec 1) : State :=
  { s with bits := s.bits.write i v }

/-- `MemWrite(i, 1, 1)` for every index of a list, in order. -/
def State.setSlots (s : State) (indices : List Nat) : State :=
  indices.foldl (fun t i => t.memWrite i 1) s

/-- The first index of a list that the address space does not hold (20_memory.md R60: 0 ≤ i < SIZE_MAX). -/
def State.missingSlot (s : State) (indices : List Nat) : Option Nat :=
  indices.find? (fun i => decide (s.params.sizeMax ≤ i))

/-! ### Responses and errors -/

/-- `respond(status, info, result)`: append one response word to RQ (30_encoding.md R104). -/
def State.respond (s : State) (opc : BitVec 4) (status : Status) (info : Info) (result : Bool) : State :=
  { s with rq := s.rq ++ [responseWord opc status info result] }

/-- `raise E(info)` (60_exceptions.md R203): no state is written but the error response. -/
def State.raise (s : State) (opc : BitVec 4) (e : Err) (info : Info) : State :=
  s.respond opc e.status info false

/-- `n <- n + 1` (10_state.md R31). -/
def State.countCommand (s : State) : State := { s with n := s.n + 1 }

/-! ### The ports -/

/-- `cmd_ready` while `rst` is as given (70_reset_and_hazards.md R230, R243): 0 under reset and while RSP_DEPTH commands
are outstanding. -/
def State.cmdReady (s : State) (rst : Bool) : Bool :=
  !rst && decide (s.rq.length < s.params.rspDepth)

/-- `rsp_valid` (30_encoding.md R92; 70_reset_and_hazards.md R230). -/
def State.rspValid (s : State) (rst : Bool) : Bool := !rst && !s.rq.isEmpty

/-- `rsp_data`: the oldest word of RQ while `rsp_valid` = 1; the spec states no value otherwise (R92; log entry 6). -/
def State.rspData (s : State) (rst : Bool) : Option Word := if rst then none else s.rq.head?

/-- The host takes the oldest response (R92). -/
def State.takeResponse (s : State) : State :=
  { s with rq := s.rq.drop 1, taken := s.taken ++ s.rq.take 1 }

/-- The response handshake at an edge with `rst` = 0 (R92). -/
def State.responseHandshake (s : State) (rspReady : Bool) : State :=
  if s.rspValid false && rspReady then s.takeResponse else s

/-- A rising edge with `rst` = 1 (70_reset_and_hazards.md R230 to R232): every piece of state takes its reset value. The
parameters are no state, and the host's coming inputs are not the engine's to clear. -/
def State.resetEdge (s : State) : State :=
  { State.resetWith s.params with port := s.port }

/-- The host has taken enough responses that one command can be accepted; nothing changes where there is room. -/
def State.makeRoom (s : State) : State :=
  { s with
    rq := s.rq.drop (s.rq.length + 1 - s.params.rspDepth)
    taken := s.taken ++ s.rq.take (s.rq.length + 1 - s.params.rspDepth) }

/-- The host offers the command word `w` at the next edge, and takes no response at it (R91). -/
def State.offerWord (s : State) (w : Word) : State :=
  { s with port := ⟨false, true, w, false⟩ :: s.port }

end Sys2Proof.Machine
end

