-- ==== Sys2Proof/Machine/Operands.lean ====
section
/-! DEFINITION. The operand forms: CONSTRUCT's range checks (40_construct.md R122, R123), the lane arithmetic and the
hash it computes (41_hash_pipeline.md R140, R142, R143), and the one addressing mode, a lane value used as a slot
index (20_memory.md R60, R61). -/

namespace Sys2Proof.Machine

/-! ### CONSTRUCT's operands -/

/-- `sizeBad <- (size = 0) or (size > SIZE_MAX)` (R122). -/
def sizeBad (p : Params) (size : Nat) : Bool := size == 0 || decide (p.sizeMax < size)

/-- `hcBad <- (hashCount = 0) or (hashCount > HC_MAX)` (R122). -/
def hcBad (p : Params) (hashCount : Nat) : Bool := hashCount == 0 || decide (p.hcMax < hashCount)

/-- An accepted size is not 0 as a 20-bit register (R127). -/
theorem size_reg_pos {p : Params} {size : Nat} (h : sizeBad p size = false) :
    0 < (BitVec.ofNat 20 size).toNat := by
  have hmax := p.sizeMax_le
  simp [sizeBad] at h
  rw [BitVec.toNat_ofNat, Nat.mod_eq_of_lt (by omega)]
  omega

/-- An accepted hash count is not 0 as an 8-bit register (R127). -/
theorem hc_reg_pos {p : Params} {hashCount : Nat} (h : hcBad p hashCount = false) :
    0 < (BitVec.ofNat 8 hashCount).toNat := by
  have hmax := p.hcMax_le
  simp [hcBad] at h
  rw [BitVec.toNat_ofNat, Nat.mod_eq_of_lt (by omega)]
  omega

/-- The register value of an accepted size. -/
def SizeReg.ofChecked (p : Params) (size : Nat) (h : sizeBad p size = false) : SizeReg :=
  ⟨BitVec.ofNat 20 size, size_reg_pos h⟩

/-- The register value of an accepted hash count. -/
def HashCountReg.ofChecked (p : Params) (hashCount : Nat) (h : hcBad p hashCount = false) : HashCountReg :=
  ⟨BitVec.ofNat 8 hashCount, hc_reg_pos h⟩

/-- The writes of a successful CONSTRUCT (R122, R124): both registers, every slot 0, every lane 0. -/
def State.startFilter (s : State) (size : SizeReg) (hashCount : HashCountReg) : State :=
  { s with size := size, hashCount := hashCount, bits := [], acc := List.replicate s.params.hcMax 0 }

/-! ### The lane arithmetic -/

/-- `(a * j + code) mod SIZE`, exact on natural numbers (R143, R147). -/
def laneStep (seed size a code : Nat) : Nat := (a * seed + code) % size

/-- `for j in 1..HASHCOUNT: ACC[j] <- (ACC[j] * j + code) mod SIZE`: `active` lanes are left, and the first of the list
has seed `seed`. Lanes past the active ones are untouched (10_state.md R37). -/
def advanceLanes (size code : Nat) : (seed active : Nat) → List Lane → List Lane
  | _, 0, lanes => lanes
  | _, _ + 1, [] => []
  | seed, active + 1, a :: lanes =>
    BitVec.ofNat 20 (laneStep seed size a.toNat code) :: advanceLanes size code (seed + 1) active lanes

/-- CHAR's writes (R143): every active lane advances from its own old value. -/
def State.feedCode (s : State) (code : Nat) : State :=
  { s with acc := advanceLanes s.sizeNat code 1 s.hcNat s.acc }

/-- D00's hash of a list of character codes, a fold from 0 with the modulo after every multiply-add (R140). -/
def refHash (codes : List Nat) (seed size : Nat) : Nat :=
  codes.foldl (fun a code => laneStep seed size a code) 0

/-- `HV(codes)`: the hash of every seed 1, 2, ..., HASHCOUNT, ascending and not deduplicated (R142). -/
def hashValues (codes : List Nat) (hashCount size : Nat) : List Nat :=
  (List.range' 1 hashCount).map (fun seed => refHash codes seed size)

/-! ### The lane values as slot indices -/

/-- The indices ACC[1], ..., ACC[HASHCOUNT] that INSERT and QUERY use (42_bitarray.md R161, R168). -/
def State.indices (s : State) : List Nat :=
  (List.range' 1 s.hcNat).map (fun j => (s.lane j).toNat)

/-- The AND of the slots at a list of indices (R169). -/
def State.allSet (s : State) (indices : List Nat) : Bool :=
  indices.all (fun i => s.memRead i == 1)

end Sys2Proof.Machine
end

