-- ==== Sys2Proof/Machine/BitArray.lean ====
section
/-! DEFINITION. Bit-array set and test: INSERT and QUERY (42_bitarray.md). Both end the item by clearing the lanes
(R163, R170). -/

namespace Sys2Proof.Machine

/-- INSERT (R161): the writes use the lane values from before the clear. -/
def execInsert (s : State) : Host.Outcome State Fault Refusal :=
  match s.missingSlot s.indices with
  | some i => .fault (.noSuchSlot i)
  | none => .next ((s.setSlots s.indices).clearLanes.respond 0x3 .ok .none false)

/-- QUERY (R168): RESULT is the AND of the tested slots (R169); no slot is written (R170). -/
def execQuery (s : State) : Host.Outcome State Fault Refusal :=
  match s.missingSlot s.indices with
  | some i => .fault (.noSuchSlot i)
  | none => .next (s.clearLanes.respond 0x4 .ok .none (s.allSet s.indices))

end Sys2Proof.Machine
end

