-- ==== Sys2Proof/Machine/Configure.lean ====
section
/-! DEFINITION. The configuration commands NOP and CONSTRUCT (40_construct.md). -/

namespace Sys2Proof.Machine

/-- NOP (R120): `respond(OK, 0, 0)`. -/
def execNop (s : State) : Host.Outcome State Fault Refusal :=
  .next (s.respond 0x0 .ok .none false)

/-- CONSTRUCT (R122): both range checks, each with its own INFO bit (R123), before the first write. -/
def execConstruct (size hashCount : Nat) (s : State) : Host.Outcome State Fault Refusal :=
  if h : sizeBad s.params size = false ∧ hcBad s.params hashCount = false then
    .next ((s.startFilter (.ofChecked s.params size h.1) (.ofChecked s.params hashCount h.2)).respond
      0x1 .ok .none false)
  else
    .next (s.raise 0x1 .invalidConfiguration
      { sizeBad := sizeBad s.params size, hcBad := hcBad s.params hashCount })

end Sys2Proof.Machine
end

