-- ==== Sys2Proof/Machine/HashPipeline.lean ====
section
/-! DEFINITION. The multi-hash address generator's command CHAR (41_hash_pipeline.md). -/

namespace Sys2Proof.Machine

/-- CHAR (R143): feed one code to every active lane. -/
def execChar (code : Nat) (s : State) : Host.Outcome State Fault Refusal :=
  .next ((s.feedCode code).respond 0x2 .ok .none false)

end Sys2Proof.Machine
end

