-- ==== Sys2Proof/Machine/Dispatch.lean ====
section
/-! DEFINITION. One arm per command of spec/opcode_table.json. -/

namespace Sys2Proof.Machine

def exec (i : Instr) (s : State) : Host.Outcome State Fault Refusal :=
  match i with
  | .nop => Sys2Proof.Machine.execNop s
  | .construct size hashCount => Sys2Proof.Machine.execConstruct size hashCount s
  | .char code => Sys2Proof.Machine.execChar code s
  | .insert => Sys2Proof.Machine.execInsert s
  | .query => Sys2Proof.Machine.execQuery s

end Sys2Proof.Machine
end

