-- ==== Sys2Proof/Machine/Command.lean ====
section
/-! DEFINITION. Accepting a command word, a run of command words, and one rising edge of the clock. -/

namespace Sys2Proof.Machine

/-- Bits [31:28] of a command word, the OPC a response copies (30_encoding.md R104). -/
def opcOf (w : Word) : BitVec 4 := BitVec.ofNat 4 (field w 31 28)

/-- One accepted command (30_encoding.md R91): the stream position advances, errors included (10_state.md R31), and the word
is executed, or answered with ILLEGAL_COMMAND where the decoder rejects it (60_exceptions.md R206). -/
def acceptWord (w : Word) (s : State) : Host.Outcome State Fault Refusal :=
  match decode w with
  | .cmd i => exec i s.countCommand
  | .illegal why => .next (s.countCommand.raise (opcOf w) .illegalCommand (illegalInfo why))

/-- Strictly sequential execution of a list of command words (20_memory.md R63), the responses left in RQ: the yardstick
of R63, which takes no account of RSP_DEPTH. The first stop ends it. -/
def runWords : List Word → State → Host.Outcome State Fault Refusal
  | [], s => .next s
  | w :: ws, s =>
    match acceptWord w s with
    | .next t => runWords ws t
    | .fault r => .fault r
    | .refused r => .refused r

/-- One rising edge of `clk` with the inputs `e`. Under `rst` the reset state results (70_reset_and_hazards.md R230).
Otherwise the two handshakes are judged on the outputs before the edge, so a response taken at this edge frees its
place only after it (R243; log entry 5). -/
def clockEdge (e : HostEdge) (s : State) : Host.Outcome State Fault Refusal :=
  if e.rst then .next s.resetEdge
  else
    let t := s.responseHandshake e.rspReady
    if e.cmdValid && s.cmdReady e.rst then acceptWord e.cmdData t else .next t

end Sys2Proof.Machine
end

