-- ==== Sys2Proof/Machine/Step.lean ====
section
/-! DEFINITION. One step: the next rising edge of `clk` at which the host drives its inputs. -/

namespace Sys2Proof.Machine

/-- One step. With no edge to come the engine is idle and holds its state (60_exceptions.md R216). -/
def step (s : State) : Host.Outcome State Fault Refusal :=
  match s.port with
  | [] => .next s
  | e :: rest => clockEdge e { s with port := rest }

/-- `s` with the host offering, at the very next edge, the command whose bits are `w` (log entry 10). The BFE stores no program
(20_memory.md R73): a command comes from the command port. -/
def State.withFetchWord (s : State) (nbits w : Nat) : State :=
  s.makeRoom.offerWord (BitVec.ofNat 32 (w % 2 ^ nbits))

end Sys2Proof.Machine
end

