-- ==== Sys2Proof/Machine/Assembler.lean ====
section
/-! DEFINITION. The assembler of 30_encoding.md R110 and the pseudo-instructions of R111: from the text of a command
stream to its words. It is notation of the host, no part of a step. -/

namespace Sys2Proof.Machine

/-- One line of R110 or R111. -/
inductive AsmLine where
  | nop
  | construct (size hashCount : Nat)
  | constructDefault
  | char (code : Nat)
  | charQuoted (c : Char)
  | insert
  | query
  | word (value : Nat)
  | chars (s : List Char)
  | inserts (s : List Char)
  | querys (s : List Char)
  deriving DecidableEq, Repr

/-- The CHAR words of an item given by its codes. -/
def itemWords (codes : List Nat) : List Word := codes.map (fun c => encode (.char c))

/-- The words of D00's `insert` (42_bitarray.md R165) on an item given by its codes. -/
def insertWords (codes : List Nat) : List Word := itemWords codes ++ [encode .insert]

/-- The words of D00's `mayContain` on an item given by its codes (00_scope.md R14). -/
def queryWords (codes : List Nat) : List Word := itemWords codes ++ [encode .query]

/-- A command whose operands fit; "The assembler never truncates" (R110). -/
def assembleInstr (i : Instr) : Option (List Word) :=
  if i.wellFormed then some [encode i] else none

/-- One line's words; `none` is an assembly error (R110). A quoted character stands for its one code under the encoding
(log entry 13). -/
def assembleLine (enc : CharEncoding) : AsmLine → Option (List Word)
  | .nop => assembleInstr .nop
  | .construct size hashCount => assembleInstr (.construct size hashCount)
  | .constructDefault => assembleInstr (.construct 100 3)
  | .char code => assembleInstr (.char code)
  | .charQuoted c =>
    match enc.codes [c] with
    | [code] => assembleInstr (.char code)
    | _ => none
  | .insert => assembleInstr .insert
  | .query => assembleInstr .query
  | .word value => if value < 2 ^ 32 then some [BitVec.ofNat 32 value] else none
  | .chars s => some (itemWords (enc.codes s))
  | .inserts s => some (insertWords (enc.codes s))
  | .querys s => some (queryWords (enc.codes s))

/-- The words of a program, in order. -/
def assembleLines (enc : CharEncoding) : List AsmLine → Option (List Word)
  | [] => some []
  | l :: ls =>
    match assembleLine enc l, assembleLines enc ls with
    | some ws, some rest => some (ws ++ rest)
    | _, _ => none

/-! ### The text -/

/-- The mnemonics of R110 and R111. -/
inductive Mnemonic where
  | nop | construct | char | insert | query | word | chars | inserts | querys
  deriving DecidableEq, Repr

/-- The spelling of each mnemonic. -/
def mnemonicTable : List (List Char × Mnemonic) :=
  [ (['N', 'O', 'P'], .nop),
    (['C', 'O', 'N', 'S', 'T', 'R', 'U', 'C', 'T'], .construct),
    (['C', 'H', 'A', 'R'], .char),
    (['I', 'N', 'S', 'E', 'R', 'T'], .insert),
    (['Q', 'U', 'E', 'R', 'Y'], .query),
    (['.', 'w', 'o', 'r', 'd'], .word),
    (['C', 'H', 'A', 'R', 'S'], .chars),
    (['I', 'N', 'S', 'E', 'R', 'T', 'S'], .inserts),
    (['Q', 'U', 'E', 'R', 'Y', 'S'], .querys) ]

/-- A token of the text. -/
inductive Token where
  | mnemonic (m : Mnemonic)
  | number (v : Nat)
  | character (c : Char)
  | text (s : List Char)
  | comma
  deriving DecidableEq, Repr

/-- The value of a decimal digit. -/
def decDigit (c : Char) : Option Nat :=
  if 48 ≤ c.toNat ∧ c.toNat ≤ 57 then some (c.toNat - 48) else none

/-- The value of a hexadecimal digit. -/
def hexDigit (c : Char) : Option Nat :=
  if 48 ≤ c.toNat ∧ c.toNat ≤ 57 then some (c.toNat - 48)
  else if 97 ≤ c.toNat ∧ c.toNat ≤ 102 then some (c.toNat - 87)
  else if 65 ≤ c.toNat ∧ c.toNat ≤ 70 then some (c.toNat - 55)
  else none

/-- The value of a run of digits, after the digits whose value is `v`. -/
def digitsFrom (base : Nat) (digit : Char → Option Nat) : List Char → Nat → Option Nat
  | [], v => some v
  | c :: cs, v =>
    match digit c with
    | some d => digitsFrom base digit cs (v * base + d)
    | none => none

/-- A word of the text: a decimal or 0x-hex number, or a mnemonic (R110). -/
def wordToken (cs : List Char) : Option Token :=
  match cs with
  | '0' :: 'x' :: d :: ds => (digitsFrom 16 hexDigit (d :: ds) 0).map .number
  | _ =>
    match mnemonicTable.lookup cs, cs with
    | some m, _ => some (.mnemonic m)
    | none, [] => none
    | none, _ => (digitsFrom 10 decDigit cs 0).map .number

/-- What the lexer is inside of. The characters gathered so far stand last first. -/
inductive LexMode where
  | blank
  | comment
  | word (gathered : List Char)
  | text (gathered : List Char)
  | quote
  | quoted (c : Char)
  deriving DecidableEq, Repr

/-- Space, tab, carriage return or newline. -/
def isBlank (c : Char) : Bool := c.toNat == 32 || c.toNat == 9 || c.toNat == 13 || c.toNat == 10

/-- The mode a character begins when no word is open; 34 is a double quote, 39 an apostrophe, 59 a semicolon, which
starts a comment (R110). A comma is a token of its own. -/
def startMode (c : Char) : LexMode × List Token :=
  if isBlank c then (.blank, [])
  else if c.toNat = 44 then (.blank, [.comma])
  else if c.toNat = 59 then (.comment, [])
  else if c.toNat = 34 then (.text [], [])
  else if c.toNat = 39 then (.quote, [])
  else (.word [c], [])

/-- The tokens of a text. A comment ends at the end of its line; a string holds any characters but a double quote and a
newline (log entry 13). -/
def lex : LexMode → List Char → Option (List Token)
  | .blank, [] => some []
  | .comment, [] => some []
  | .word gathered, [] => (wordToken gathered.reverse).map (fun t => [t])
  | _, [] => none
  | .blank, c :: cs => (lex (startMode c).1 cs).map ((startMode c).2 ++ ·)
  | .comment, c :: cs => lex (if c.toNat = 10 then .blank else .comment) cs
  | .word gathered, c :: cs =>
    match startMode c with
    | (.word _, _) => lex (.word (c :: gathered)) cs
    | (mode, emitted) =>
      match wordToken gathered.reverse, lex mode cs with
      | some t, some ts => some (t :: emitted ++ ts)
      | _, _ => none
  | .text gathered, c :: cs =>
    if c.toNat = 34 then (lex .blank cs).map (.text gathered.reverse :: ·)
    else if c.toNat = 10 then none
    else lex (.text (c :: gathered)) cs
  | .quote, c :: cs => lex (.quoted c) cs
  | .quoted q, c :: cs =>
    if c.toNat = 39 then (lex .blank cs).map (.character q :: ·) else none

/-- The lines of a token list. CONSTRUCT without operands is the pseudo-instruction of R111. -/
def parse : List Token → Option (List AsmLine)
  | [] => some []
  | .mnemonic .nop :: ts => (parse ts).map (.nop :: ·)
  | .mnemonic .construct :: .number size :: .comma :: .number hashCount :: ts =>
    (parse ts).map (.construct size hashCount :: ·)
  | .mnemonic .construct :: ts => (parse ts).map (.constructDefault :: ·)
  | .mnemonic .char :: .number code :: ts => (parse ts).map (.char code :: ·)
  | .mnemonic .char :: .character c :: ts => (parse ts).map (.charQuoted c :: ·)
  | .mnemonic .insert :: ts => (parse ts).map (.insert :: ·)
  | .mnemonic .query :: ts => (parse ts).map (.query :: ·)
  | .mnemonic .word :: .number value :: ts => (parse ts).map (.word value :: ·)
  | .mnemonic .chars :: .text s :: ts => (parse ts).map (.chars s :: ·)
  | .mnemonic .inserts :: .text s :: ts => (parse ts).map (.inserts s :: ·)
  | .mnemonic .querys :: .text s :: ts => (parse ts).map (.querys s :: ·)
  | _ => none

/-- The words of a command stream's text; `none` is an assembly error. -/
def assemble (enc : CharEncoding) (source : List Char) : Option (List Word) :=
  match lex .blank source with
  | none => none
  | some ts =>
    match parse ts with
    | none => none
    | some ls => assembleLines enc ls

end Sys2Proof.Machine
end

