-- ==== Sys2Proof/Safety.lean ====
section
/-! DEFINITION. The terms statements use: the invariant of a running engine (10_state.md R33 to R44), the current item
(41_hash_pipeline.md R141), filter lifetimes (10_state.md R35), the host's own duty on the command port (30_encoding.md
R91), and runs of steps. -/

namespace Sys2Proof.Machine

/-- The invariants of SIZE, HASHCOUNT, the lanes and the slots. SIZE ≥ 1 and HASHCOUNT ≥ 1 are in their types. -/
structure State.EngineInv (s : State) : Prop where
  /-- SIZE ≤ SIZE_MAX (R33). -/
  size_le : s.sizeNat ≤ s.params.sizeMax
  /-- HASHCOUNT ≤ HC_MAX (R34). -/
  hc_le : s.hcNat ≤ s.params.hcMax
  /-- HC_MAX lanes are built (R36). -/
  acc_length : s.acc.length = s.params.hcMax
  /-- ACC[j] < SIZE in every active lane (R36, R146). -/
  lane_lt : ∀ j, 1 ≤ j → j ≤ s.hcNat → (s.lane j).toNat < s.sizeNat
  /-- Inactive lanes hold 0 (R37). -/
  lane_inactive : ∀ j, s.hcNat < j → s.lane j = 0
  /-- The bit array is in its canonical form. -/
  bits_wf : s.bits.wf
  /-- BITS[i] = 0 for i ≥ SIZE (R40). -/
  slot_above : ∀ i, s.sizeNat ≤ i → s.memRead i = 0

/-- A word that 30_encoding.md R104 to R107 allow as a response: bits [27:12] and [3:1] are 0, STATUS is 0, 1 or 2 with the
INFO bits and opcodes that R105 and R106 give it, and RESULT is 1 only for a QUERY with STATUS 0 (R107). -/
abbrev LegalResponse (w : Word) : Prop :=
  field w 27 12 = 0 ∧ field w 3 1 = 0 ∧
  ((field w 7 4 = 0 ∧ field w 11 8 = 0 ∧ field w 31 28 ≤ 4) ∨
   (field w 7 4 = 1 ∧ 1 ≤ field w 11 8 ∧ field w 11 8 ≤ 3 ∧ field w 31 28 = 1) ∨
   (field w 7 4 = 2 ∧ field w 11 8 = 4 ∧ 5 ≤ field w 31 28) ∨
   (field w 7 4 = 2 ∧ field w 11 8 = 8 ∧ field w 31 28 ∈ [0, 2, 3, 4])) ∧
  (field w 0 0 = 1 → field w 31 28 = 4 ∧ field w 7 4 = 0)

/-- The invariants of the response queue and of the model's counters. -/
structure State.PortInv (s : State) : Prop where
  /-- RQ holds at most RSP_DEPTH words (R44). -/
  rq_le : s.rq.length ≤ s.params.rspDepth
  /-- One response per accepted command (R104): accepted is taken plus outstanding. -/
  one_each : s.n = s.taken.length + s.rq.length
  /-- Every response is a word the format allows. -/
  legal : ∀ w ∈ s.taken ++ s.rq, LegalResponse w

/-- The invariant of a running engine. -/
structure State.Inv (s : State) : Prop where
  engine : s.EngineInv
  ports  : s.PortInv

/-- The engine is at an item boundary: every lane is 0 (41_hash_pipeline.md R141). -/
def State.AtBoundary (s : State) : Prop := ∀ a ∈ s.acc, a = 0

/-- The lanes hold the hashes of the item `codes` (41_hash_pipeline.md R144). -/
def State.LanesHash (s : State) (codes : List Nat) : Prop :=
  ∀ j, 1 ≤ j → j ≤ s.hcNat → (s.lane j).toNat = refHash codes j s.sizeNat

/-- A CONSTRUCT word with legal operands: the commands that start a new filter lifetime (10_state.md R35). -/
def startsLifetime (p : Params) (w : Word) : Bool :=
  match decode w with
  | .cmd (.construct size hashCount) => !sizeBad p size && !hcBad p hashCount
  | _ => false

/-- The current item after one more accepted word (41_hash_pipeline.md R141): CHAR extends it, a successful CONSTRUCT,
INSERT and QUERY end it, and NOP and the commands that raise an error leave it. -/
def itemAfter (p : Params) (codes : List Nat) (w : Word) : List Nat :=
  match decode w with
  | .cmd (.char code) => codes ++ [code]
  | .cmd .insert => []
  | .cmd .query => []
  | .cmd (.construct size hashCount) => if !sizeBad p size && !hcBad p hashCount then [] else codes
  | .cmd .nop => codes
  | .illegal _ => codes

/-- The command word accepted at the next edge, if one is (30_encoding.md R91). -/
def State.acceptedWord (s : State) : Option Word :=
  match s.port with
  | [] => none
  | e :: _ => if e.cmdValid && s.cmdReady e.rst then some e.cmdData else none

/-- `k` steps. -/
def stepN : Nat → State → Host.Outcome State Fault Refusal
  | 0, s => .next s
  | k + 1, s =>
    match step s with
    | .next t => stepN k t
    | .fault r => .fault r
    | .refused r => .refused r

/-- The words accepted in `k` steps, in order. -/
def acceptedIn : Nat → State → List Word
  | 0, _ => []
  | k + 1, s =>
    match step s with
    | .next t => s.acceptedWord.toList ++ acceptedIn k t
    | _ => []

/-- No rising edge to come has `rst` = 1. -/
abbrev State.NoReset (s : State) : Prop := ∀ e ∈ s.port, e.rst = false

/-- The edges of a host that offers each word in turn and takes its response before the next (70_reset_and_hazards.md R243,
with the nominal RSP_DEPTH = 1). -/
def drainPort (ws : List Word) : List HostEdge :=
  ws.flatMap fun w => [⟨false, true, w, false⟩, ⟨false, false, 0, true⟩]

/-- The state in which a run starts (70_reset_and_hazards.md R247): the reset state, before whatever the host is to drive. -/
abbrev State.StartsRun (s : State) : Prop := s = { State.resetWith s.params with port := s.port }

/-- From `s`, `k` steps without a reset deliver the list `ws` to the end and lead to `t`: the words accepted are `ws`, all of
them and in order, and every response is taken, so no command is outstanding. -/
structure State.Delivers (s : State) (ws : List Word) (k : Nat) (t : State) : Prop where
  steps    : stepN k s = .next t
  noReset  : ∀ e ∈ s.port.take k, e.rst = false
  accepted : acceptedIn k s = ws
  drained  : t.rq = []

/-- The run of `ws` that starts in `s` has ended after `k` steps, in `t` (70_reset_and_hazards.md R247). Its observation is
`t.taken`. A reset during the `k` steps makes it two runs, so it is no run of `ws`. -/
structure State.RunEnded (s : State) (ws : List Word) (k : Nat) (t : State) : Prop where
  starts   : s.StartsRun
  delivers : s.Delivers ws k t

/-- The host's duty at the next edge (30_encoding.md R91): a word it offers and the engine does not accept is offered again,
unchanged, at the edge after. The engine does not check it. -/
def State.HostHoldsOffer (s : State) : Prop :=
  ∀ e f rest, s.port = e :: f :: rest → e.rst = false → e.cmdValid = true → s.acceptedWord = none →
    f.cmdValid = true ∧ f.cmdData = e.cmdData

end Sys2Proof.Machine
end

