-- ==== Sys2Proof/Certificates/Slice0/Obligations.lean ====
section
/-! DEFINITION. The statements for the provers. Each docstring names the rule of spec/ it formalises; where a clause rests on
a choice of the model, it names the log entry of notes/assumptions/. -/

open Sys2Proof Sys2Proof.Machine

/-! ### Encoding and decoding (30_encoding.md) -/

/-- R94, R95, R98: no operand bit of an encoding is dropped. -/
def Obligations.DecodeInvertsEncode : Prop :=
  ∀ i : Instr, i.wellFormed = true → decode (encode i) = .cmd i

/-- R94, R95, R97(e): a word that decodes is the one word of its command, so no two words share a command. -/
def Obligations.EncodeInvertsDecode : Prop :=
  ∀ (w : Word) (i : Instr), decode w = .cmd i → i.wellFormed = true ∧ encode i = w

/-- R99: the example words, both ways. -/
def Obligations.ExampleWordsDecode : Prop :=
  (decode 0x00000000#32 = .cmd .nop ∧ encode .nop = 0x00000000#32) ∧
  (decode 0x10300064#32 = .cmd (.construct 100 3) ∧ encode (.construct 100 3) = 0x10300064#32) ∧
  (decode 0x1050000A#32 = .cmd (.construct 10 5) ∧ encode (.construct 10 5) = 0x1050000A#32) ∧
  (decode 0x105003E8#32 = .cmd (.construct 1000 5) ∧ encode (.construct 1000 5) = 0x105003E8#32) ∧
  (decode 0x1FFFFFFF#32 = .cmd (.construct 1048575 255) ∧ encode (.construct 1048575 255) = 0x1FFFFFFF#32) ∧
  (decode 0x20000061#32 = .cmd (.char 0x61) ∧ encode (.char 0x61) = 0x20000061#32) ∧
  (decode 0x201FFFFF#32 = .cmd (.char 0x1FFFFF) ∧ encode (.char 0x1FFFFF) = 0x201FFFFF#32) ∧
  (decode 0x30000000#32 = .cmd .insert ∧ encode .insert = 0x30000000#32) ∧
  (decode 0x40000000#32 = .cmd .query ∧ encode .query = 0x40000000#32)

/-- R206 (60_exceptions.md): which words raise ILLEGAL_COMMAND, with which INFO bit, and that no other word does. -/
def Obligations.IllegalWordsRaiseIllegalCommand : Prop :=
  ∀ (w : Word) (s : State),
    (5 ≤ field w 31 28 →
      acceptWord w s = .next { s with
        n := s.n + 1
        rq := s.rq ++ [BitVec.ofNat 32 (field w 31 28 * 2 ^ 28 + 0x420)] }) ∧
    ((field w 31 28 ∈ [0, 3, 4] ∧ field w 27 0 ≠ 0) ∨ (field w 31 28 = 2 ∧ field w 27 21 ≠ 0) →
      acceptWord w s = .next { s with
        n := s.n + 1
        rq := s.rq ++ [BitVec.ofNat 32 (field w 31 28 * 2 ^ 28 + 0x820)] }) ∧
    (∀ i t r, decode w = .cmd i → acceptWord w s = .next t → t.rq = s.rq ++ [r] → field r 7 4 ≠ 2)

/-! ### The five commands -/

/-- R120 (40_construct.md): the one NOP word, its effect in every state, and the illegal words of its opcode. -/
def Obligations.NopOnlyResponds : Prop :=
  (∀ w : Word, decode w = .cmd .nop ↔ w = 0x00000000#32) ∧
  (∀ s : State, exec .nop s = .next { s with rq := s.rq ++ [0x00000000#32] }) ∧
  (∀ w : Word, field w 31 28 = 0 → field w 27 0 ≠ 0 → decode w = .illegal .fieldNonzero)

/-- R124 (40_construct.md): a CONSTRUCT with both operands in range completes, and the new filter is empty; its frame. -/
def Obligations.ConstructStartsEmptyFilter : Prop :=
  ∀ (s : State) (size hashCount : Nat),
    1 ≤ size → size ≤ s.params.sizeMax → 1 ≤ hashCount → hashCount ≤ s.params.hcMax →
    ∃ t, exec (.construct size hashCount) s = .next t ∧
      t.sizeNat = size ∧ t.hcNat = hashCount ∧
      (∀ i, t.memRead i = 0) ∧ (∀ j, t.lane j = 0) ∧
      t = { s with
        size := t.size
        hashCount := t.hashCount
        bits := t.bits
        acc := t.acc
        rq := s.rq ++ [0x10000000#32] }

/-- R125 (40_construct.md), R205 (60_exceptions.md): a CONSTRUCT with an operand out of range writes nothing and reports
each bad operand in its own INFO bit. -/
def Obligations.ConstructRejectsIllegalOperands : Prop :=
  ∀ (s : State) (size hashCount : Nat),
    (size = 0 ∨ s.params.sizeMax < size) ∨ (hashCount = 0 ∨ s.params.hcMax < hashCount) →
    ∃ r : Word,
      exec (.construct size hashCount) s = .next { s with rq := s.rq ++ [r] } ∧
      field r 31 28 = 1 ∧ field r 7 4 = 1 ∧ field r 0 0 = 0 ∧
      (field r 8 8 = 1 ↔ size = 0 ∨ s.params.sizeMax < size) ∧
      (field r 9 9 = 1 ↔ hashCount = 0 ∨ s.params.hcMax < hashCount) ∧
      field r 11 10 = 0 ∧ field r 27 12 = 0 ∧ field r 3 1 = 0

/-- R143 (41_hash_pipeline.md): the CHAR words and the illegal words of the opcode; the exact update of every active lane from
its old value, the untouched inactive lanes, and the frame; the rule's example. -/
def Obligations.CharAdvancesActiveLanes : Prop :=
  (∀ (w : Word) (code : Nat), decode w = .cmd (.char code) ↔
    field w 31 28 = 2 ∧ field w 27 21 = 0 ∧ code = field w 20 0) ∧
  (∀ w : Word, field w 31 28 = 2 → field w 27 21 ≠ 0 →
    decode w = .illegal .fieldNonzero ∧ ∀ s t, acceptWord w s = .next t → t.acc = s.acc) ∧
  (∀ (s : State) (code : Nat), s.EngineInv →
    ∃ t, exec (.char code) s = .next t ∧
      (∀ j, 1 ≤ j → j ≤ s.hcNat → (t.lane j).toNat = ((s.lane j).toNat * j + code) % s.sizeNat) ∧
      (∀ j, s.hcNat < j → t.lane j = s.lane j) ∧
      t = { s with acc := t.acc, rq := s.rq ++ [0x20000000#32] }) ∧
  (∀ p : Params, ∃ t u,
    exec (.char 97) (State.resetWith p) = .next t ∧ t.rq = [0x20000000#32] ∧
    t.lane 1 = 97 ∧ t.lane 2 = 97 ∧ t.lane 3 = 97 ∧
    exec (.char 112) t = .next u ∧ u.lane 1 = 9 ∧ u.lane 2 = 6 ∧ u.lane 3 = 3)

/-- R161, R162, R163 (42_bitarray.md): the one INSERT word; INSERT sets exactly the slots of the active lanes, clears every lane,
and changes nothing else; in a running engine every written index is below SIZE. -/
def Obligations.InsertSetsLaneSlots : Prop :=
  (∀ w : Word, decode w = .cmd .insert ↔ w = 0x30000000#32) ∧
  (∀ w : Word, field w 31 28 = 3 → field w 27 0 ≠ 0 → decode w = .illegal .fieldNonzero) ∧
  (∀ s : State, (∀ j, 1 ≤ j → j ≤ s.hcNat → (s.lane j).toNat < s.params.sizeMax) →
    ∃ t, exec .insert s = .next t ∧
      (∀ j, 1 ≤ j → j ≤ s.hcNat → t.memRead (s.lane j).toNat = 1) ∧
      (∀ i, (∀ j, 1 ≤ j → j ≤ s.hcNat → (s.lane j).toNat ≠ i) → t.memRead i = s.memRead i) ∧
      (∀ j, t.lane j = 0) ∧
      t = { s with bits := t.bits, acc := t.acc, rq := s.rq ++ [0x30000000#32] }) ∧
  (∀ s t : State, s.EngineInv → exec .insert s = .next t → ∀ i,
    (t.memRead i ≠ s.memRead i → i < s.sizeNat ∧ t.memRead i = 1) ∧ (s.memRead i = 1 → t.memRead i = 1))

/-- R168, R169, R170 (42_bitarray.md): the one QUERY word; RESULT is 1 exactly when every tested slot is 1; no slot is
written, every lane is cleared, and nothing else changes. -/
def Obligations.QueryTestsLaneSlots : Prop :=
  (∀ w : Word, decode w = .cmd .query ↔ w = 0x40000000#32) ∧
  (∀ w : Word, field w 31 28 = 4 → field w 27 0 ≠ 0 → decode w = .illegal .fieldNonzero) ∧
  (∀ s : State, (∀ j, 1 ≤ j → j ≤ s.hcNat → (s.lane j).toNat < s.params.sizeMax) →
    ∃ t, exec .query s = .next t ∧
      ((∀ j, 1 ≤ j → j ≤ s.hcNat → s.memRead (s.lane j).toNat = 1) →
        t = { s with acc := t.acc, rq := s.rq ++ [0x40000001#32] }) ∧
      ((∃ j, 1 ≤ j ∧ j ≤ s.hcNat ∧ s.memRead (s.lane j).toNat ≠ 1) →
        t = { s with acc := t.acc, rq := s.rq ++ [0x40000000#32] }) ∧
      (∀ j, t.lane j = 0))

/-- 20_memory.md R60 bounds the indices; that an access outside it stops is the model's choice (log entry 7). -/
def Obligations.MissingSlotStopsInsertAndQuery : Prop :=
  ∀ (s : State) (j : Nat), 1 ≤ j → j ≤ s.hcNat → s.params.sizeMax ≤ (s.lane j).toNat →
    ∃ i, s.params.sizeMax ≤ i ∧
      exec .insert s = .fault (.noSuchSlot i) ∧ exec .query s = .fault (.noSuchSlot i)

/-- 10_state.md R29's column "host access": SIZE and HASHCOUNT are written only by a successful CONSTRUCT; the bit array only
by INSERT and a successful CONSTRUCT; the lanes only by CHAR, INSERT, QUERY and a successful CONSTRUCT. -/
def Obligations.OnlyNamedCommandsWrite : Prop :=
  ∀ (w : Word) (s t : State), acceptWord w s = .next t → startsLifetime s.params w = false →
    t.size = s.size ∧ t.hashCount = s.hashCount ∧
    (t.bits ≠ s.bits → decode w = .cmd .insert) ∧
    (t.acc ≠ s.acc →
      (∃ code, decode w = .cmd (.char code)) ∨ decode w = .cmd .insert ∨ decode w = .cmd .query)

/-! ### Responses and errors -/

/-- R104 (30_encoding.md): one word per accepted command, with the command's OPC, and every field where the rule puts it. -/
def Obligations.EveryCommandAppendsOneResponse : Prop :=
  (∀ (w : Word) (s t : State), acceptWord w s = .next t →
    ∃ r : Word, t.rq = s.rq ++ [r] ∧ field r 31 28 = field w 31 28 ∧
      field r 27 12 = 0 ∧ field r 3 1 = 0 ∧ t.n = s.n + 1 ∧ t.taken = s.taken) ∧
  (∀ (opc : BitVec 4) (status : Status) (info : Info) (result : Bool),
    field (responseWord opc status info result) 31 28 = opc.toNat ∧
    field (responseWord opc status info result) 27 12 = 0 ∧
    field (responseWord opc status info result) 11 8 = info.code ∧
    field (responseWord opc status info result) 7 4 = status.code ∧
    field (responseWord opc status info result) 3 1 = 0 ∧
    field (responseWord opc status info result) 0 0 = result.toNat)

/-- R203 (60_exceptions.md): a command that answers an error writes no state, has RESULT 0, and advances the stream. -/
def Obligations.ErrorsWriteNothing : Prop :=
  ∀ (w : Word) (s t : State) (r : Word), acceptWord w s = .next t → t.rq = s.rq ++ [r] → field r 7 4 ≠ 0 →
    t = { s with n := s.n + 1, rq := s.rq ++ [r] } ∧ field r 0 0 = 0 ∧
    ((field r 7 4 = 1 ∧ ∃ size hashCount, decode w = .cmd (.construct size hashCount)) ∨
     (field r 7 4 = 2 ∧ ∃ why, decode w = .illegal why))

/-- R69 (20_memory.md): a response, and the engine's state after it, are functions of the parameters, the engine's state and
the command; RQ, the port inputs, the responses taken and the position have no part in them. -/
def Obligations.ResponseDependsOnEngineStateOnly : Prop :=
  ∀ (w : Word) (s s' t : State),
    s'.params = s.params → s'.size = s.size → s'.hashCount = s.hashCount → s'.acc = s.acc → s'.bits = s.bits →
    acceptWord w s = .next t →
    ∃ (t' : State) (r : Word), acceptWord w s' = .next t' ∧
      t'.size = t.size ∧ t'.hashCount = t.hashCount ∧ t'.acc = t.acc ∧ t'.bits = t.bits ∧
      t.rq = s.rq ++ [r] ∧ t'.rq = s'.rq ++ [r]

/-! ### The step: reset and the two handshakes -/

/-- R91 (30_encoding.md): at an edge with rst = 0, a word offered while fewer than RSP_DEPTH commands are outstanding is
accepted, and the step is `exec` of the command it decodes to, at the state in which the edge is used up, the stream position
advanced and the response handshake of the same edge made. The model's choices: that such a word is always accepted, and
completes at that same edge, is log entry 4 (R243 lets a busy engine hold `cmd_ready` = 0); that both handshakes judge the
state before the edge is log entry 5; `taken` is log entry 8. -/
def Obligations.StepExecutesDecodedCommand : Prop :=
  ∀ (s : State) (e : HostEdge) (rest : List HostEdge) (i : Instr),
    s.port = e :: rest → e.rst = false → e.cmdValid = true → s.rq.length < s.params.rspDepth →
    decode e.cmdData = .cmd i →
    step s = exec i { s with
      port := rest
      n := s.n + 1
      rq := if e.rspReady then s.rq.drop 1 else s.rq
      taken := if e.rspReady then s.taken ++ s.rq.take 1 else s.taken }

/-- R203, R206 (60_exceptions.md), R217: an accepted word the decoder rejects is answered, not refused. The model's choices:
that a word offered while there is room is always accepted, and answered at the accepting edge, is log entry 4; that a
response may be taken at that same edge is log entry 5; `taken` is log entry 8. -/
def Obligations.StepAnswersIllegalWord : Prop :=
  ∀ (s : State) (e : HostEdge) (rest : List HostEdge) (why : Illegal),
    s.port = e :: rest → e.rst = false → e.cmdValid = true → s.rq.length < s.params.rspDepth →
    decode e.cmdData = .illegal why →
    ∃ r : Word,
      step s = .next { s with
        port := rest
        n := s.n + 1
        rq := (if e.rspReady then s.rq.drop 1 else s.rq) ++ [r]
        taken := if e.rspReady then s.taken ++ s.rq.take 1 else s.taken } ∧
      field r 31 28 = field e.cmdData 31 28 ∧ field r 7 4 = 2 ∧ field r 0 0 = 0 ∧
      field r 11 8 = (match why with | .opcReserved => 4 | .fieldNonzero => 8)

/-- R91 (30_encoding.md), R243 (70_reset_and_hazards.md): no word is accepted at an edge at which none is offered or RSP_DEPTH
commands are outstanding; only the response handshake happens. The model's choices: that a full queue accepts nothing even
at the edge at which a response is taken is log entry 5 (DEDUCED); `taken` is log entry 8. -/
def Obligations.StepWithoutAcceptance : Prop :=
  ∀ (s : State) (e : HostEdge) (rest : List HostEdge),
    s.port = e :: rest → e.rst = false → (e.cmdValid = false ∨ s.params.rspDepth ≤ s.rq.length) →
    step s = .next { s with
      port := rest
      rq := if e.rspReady then s.rq.drop 1 else s.rq
      taken := if e.rspReady then s.taken ++ s.rq.take 1 else s.taken }

/-- R92 (30_encoding.md): `rsp_valid` and `rsp_data`, the word the host takes and that leaves RQ, and that a word not taken stays
offered. The model's choices: that a word accepted at the same edge has its response in RQ after it, so that RQ is then the rest
and that one word, is log entries 4 and 5; `taken` is log entry 8. -/
def Obligations.ResponseHandshakeTakesOldest : Prop :=
  (∀ s : State, s.rspValid false = true ↔ s.rq ≠ []) ∧
  (∀ (s : State) (r : Word) (rs : List Word), s.rq = r :: rs → s.rspData false = some r) ∧
  (∀ (s : State) (e : HostEdge) (rest : List HostEdge) (r : Word) (rs : List Word) (t : State),
    s.port = e :: rest → e.rst = false → e.rspReady = true → s.rq = r :: rs → step s = .next t →
    t.taken = s.taken ++ [r] ∧
    (s.acceptedWord = none → t.rq = rs) ∧
    (∀ w, s.acceptedWord = some w → ∃ new, t.rq = rs ++ [new])) ∧
  (∀ (s : State) (e : HostEdge) (rest : List HostEdge) (r : Word) (t : State),
    s.port = e :: rest → e.rst = false → e.rspReady = false → s.rspData false = some r → step s = .next t →
    t.rspData false = some r ∧ t.taken = s.taken)

/-- R230 (70_reset_and_hazards.md): one edge with rst = 1 gives the reset state, whatever else the host drives, and no handshake
is possible meanwhile. The model's choices: the parameters and the inputs of later edges stay, being no state of the engine
(log entries 1 and 3); `taken` is emptied (log entry 8). -/
def Obligations.ResetEdgeGivesResetState : Prop :=
  (∀ (s : State) (e : HostEdge) (rest : List HostEdge), s.port = e :: rest → e.rst = true →
    step s = .next { State.resetWith s.params with port := rest }) ∧
  (∀ s : State, s.cmdReady true = false ∧ s.rspValid true = false)

/-- R231 (70_reset_and_hazards.md): the reset values, for every parameter instance. -/
def Obligations.ResetStateValues : Prop :=
  ∀ p : Params,
    (State.resetWith p).sizeNat = 100 ∧ (State.resetWith p).hcNat = 3 ∧
    (∀ i, (State.resetWith p).memRead i = 0) ∧
    (∀ j, (State.resetWith p).lane j = 0) ∧
    (State.resetWith p).rq = [] ∧ (State.resetWith p).n = 0

/-- The model's own interface (log entry 10): the word put before the machine is the one its next step executes. -/
def Obligations.OfferedWordRunsNext : Prop :=
  ∀ (s : State) (w : Word) (i : Instr), decode w = .cmd i →
    ∃ u : State, step (s.withFetchWord 32 w.toNat) = exec i u ∧
      u = { s with n := s.n + 1, rq := u.rq, taken := u.taken } ∧
      u.taken ++ u.rq = s.taken ++ s.rq ∧
      (s.rq.length < s.params.rspDepth → u.rq = s.rq)

/-! ### Invariants of the running machine -/

/-- The reset state meets the invariant (10_state.md R33 to R44), for every parameter instance. -/
def Obligations.ResetMeetsInvariant : Prop :=
  ∀ p : Params, (State.resetWith p).Inv

/-- 10_state.md R33, R34, R36, R37, R40, R44 and 30_encoding.md R104 to R107: every step keeps them. -/
def Obligations.StepKeepsInvariant : Prop :=
  ∀ s t : State, s.Inv → step s = .next t → t.Inv

/-- 60_exceptions.md R202, R217; 93_implementation_defined.md: from a state that meets the invariant no step faults and none is
refused, whatever word the host offers. -/
def Obligations.RunningEngineNeverStops : Prop :=
  ∀ s : State, s.Inv → ∃ t, step s = .next t

/-- 00_scope.md R7: no step changes a parameter. -/
def Obligations.StepKeepsParameters : Prop :=
  ∀ s t : State, step s = .next t → t.params = s.params

/-- 10_state.md R35: within a filter lifetime SIZE and HASHCOUNT are constant, over any number of steps. -/
def Obligations.ConfigurationConstantInLifetime : Prop :=
  ∀ (k : Nat) (s t : State), s.NoReset → (∀ w ∈ acceptedIn k s, startsLifetime s.params w = false) →
    stepN k s = .next t → t.size = s.size ∧ t.hashCount = s.hashCount

/-- 10_state.md R39: within a filter lifetime a slot that is 1 stays 1, over any number of steps. -/
def Obligations.SlotsNeverClearedInLifetime : Prop :=
  ∀ (k : Nat) (s t : State) (i : Nat), s.NoReset →
    (∀ w ∈ acceptedIn k s, startsLifetime s.params w = false) →
    stepN k s = .next t → s.memRead i = 1 → t.memRead i = 1

/-- 20_memory.md R63: whatever the host's handshakes, `k` steps leave the state and the responses of strictly sequential
execution of the words they accepted, in acceptance order. -/
def Obligations.StepsRefineSequentialExecution : Prop :=
  ∀ (k : Nat) (s t : State), s.NoReset → stepN k s = .next t →
    ∃ u, runWords (acceptedIn k s) s = .next u ∧
      t.size = u.size ∧ t.hashCount = u.hashCount ∧ t.acc = u.acc ∧ t.bits = u.bits ∧ t.n = u.n ∧
      t.taken ++ t.rq = u.taken ++ u.rq

/-- 70_reset_and_hazards.md R243: a host that takes no response deadlocks once RSP_DEPTH commands are outstanding. -/
def Obligations.UndrainedResponsesStopAcceptance : Prop :=
  ∀ (k : Nat) (s t : State), s.NoReset → (∀ e ∈ s.port, e.rspReady = false) →
    s.rq.length = s.params.rspDepth → stepN k s = .next t →
    t.n = s.n ∧ t.rq = s.rq ∧ t.taken = s.taken ∧ acceptedIn k s = []

/-- 30_encoding.md R91, 70_reset_and_hazards.md R243, R246: a word that the host holds while it takes a response is accepted at
the next edge of the model (which has no busy edges: log entry 4). -/
def Obligations.HeldOfferIsAccepted : Prop :=
  ∀ (s : State) (e f : HostEdge) (rest : List HostEdge), s.Inv → s.port = e :: f :: rest →
    e.rst = false → f.rst = false → e.cmdValid = true → e.rspReady = true → s.acceptedWord = none →
    s.HostHoldsOffer →
    ∃ t, step s = .next t ∧ t.acceptedWord = some e.cmdData

/-- 70_reset_and_hazards.md R246, R247: a host that takes every response sees every word of its list accepted and every response
taken, one per word, in order, as strictly sequential execution gives them. That an accepted command has answered by the next
edge is log entry 4; `taken` is log entry 8. -/
def Obligations.DrainedRunEndsWithEveryResponse : Prop :=
  ∀ (s : State) (ws : List Word), s.Inv → s.rq = [] → s.port = drainPort ws →
    ∃ t u, s.Delivers ws (2 * ws.length) t ∧ runWords ws s = .next u ∧
      t.port = [] ∧ t.taken = s.taken ++ u.rq ∧ u.rq.length = ws.length ∧
      t.size = u.size ∧ t.hashCount = u.hashCount ∧ t.acc = u.acc ∧ t.bits = u.bits

/-- 70_reset_and_hazards.md R247: whatever the host's handshakes, the observation of an ended run is one response per command
of its list, in order, as strictly sequential execution from the reset state gives them; every list has a run that ends; an
edge with rst = 1 starts another run, with no response outstanding. That the observation is the field `taken` is log entry 8;
the number of edges of the second clause is log entry 4. -/
def Obligations.EndedRunObservesEveryResponse : Prop :=
  (∀ (s t : State) (ws : List Word) (k : Nat), s.RunEnded ws k t →
    ∃ u, runWords ws (State.resetWith s.params) = .next u ∧ t.taken = u.rq ∧
      t.taken.map (field · 31 28) = ws.map (field · 31 28)) ∧
  (∀ (p : Params) (ws : List Word),
    ∃ t, ({ State.resetWith p with port := drainPort ws } : State).RunEnded ws (2 * ws.length) t) ∧
  (∀ (s : State) (e : HostEdge) (rest : List HostEdge), s.port = e :: rest → e.rst = true →
    ∃ t, step s = .next t ∧ t.StartsRun ∧ t.params = s.params ∧ t.port = rest)

/-! ### The hash (41_hash_pipeline.md) -/

/-- R144: at reset, and after any run of accepted words if they did before it, the lanes hold the hashes of the current item
(R141), which are the list HV of R142. -/
def Obligations.LanesHashCurrentItem : Prop :=
  (∀ p : Params, (State.resetWith p).LanesHash []) ∧
  (∀ (ws : List Word) (s t : State) (codes : List Nat), s.EngineInv → s.LanesHash codes →
    runWords ws s = .next t →
    t.LanesHash (ws.foldl (itemAfter s.params) codes) ∧
    t.indices = hashValues (ws.foldl (itemAfter s.params) codes) t.hcNat t.sizeNat)

/-- R142, R144: from an item boundary, an item's CHAR run completes and leaves the list HV of its codes; its frame. -/
def Obligations.ItemRunGivesHashValues : Prop :=
  ∀ (s : State) (codes : List Nat), s.EngineInv → s.AtBoundary → (∀ c ∈ codes, c < 2 ^ 21) →
    ∃ t, runWords (itemWords codes) s = .next t ∧
      t.indices = hashValues codes s.hcNat s.sizeNat ∧
      t = { s with
        acc := t.acc
        n := s.n + codes.length
        rq := s.rq ++ List.replicate codes.length 0x20000000#32 }

/-- R146, R147: the hash stays below SIZE, and the lane update's intermediate value fits in 29 bits. -/
def Obligations.LaneUpdateFitsDatapath : Prop :=
  ∀ (s : State) (j code : Nat), s.EngineInv → 1 ≤ j → j ≤ s.hcNat → code < 2 ^ 21 →
    (s.lane j).toNat < s.sizeNat ∧
    (s.lane j).toNat * j + code ≤ (s.params.sizeMax - 1) * s.params.hcMax + 2 ^ 21 - 1 ∧
    (s.params.sizeMax - 1) * s.params.hcMax + 2 ^ 21 - 1 ≤ 269483521 ∧
    269483521 < 2 ^ 29

/-- R149: lane 1 is the sum of the codes modulo SIZE, so it is the same for every order of the same codes. -/
def Obligations.SeedOneHashIsSum : Prop :=
  (∀ (codes : List Nat) (size : Nat), 1 ≤ size → refHash codes 1 size = codes.sum % size) ∧
  (∀ (codes codes' : List Nat) (size : Nat), 1 ≤ size → codes.Perm codes' →
    refHash codes 1 size = refHash codes' 1 size)

/-- R140, R150, R151, R152: the fold's two equations, and the items of size 1, of no character and of one character. -/
def Obligations.HashCornerCases : Prop :=
  (∀ seed size : Nat, refHash [] seed size = 0) ∧
  (∀ (codes : List Nat) (c seed size : Nat),
    refHash (codes ++ [c]) seed size = (refHash codes seed size * seed + c) % size) ∧
  (∀ c seed size : Nat, refHash [c] seed size = c % size) ∧
  (∀ (s : State) (j : Nat), s.EngineInv → s.sizeNat = 1 → s.lane j = 0)

/-! ### The laws of the filter (42_bitarray.md) -/

/-- R176: after an item is inserted, and any further commands of the same lifetime, a query of the item answers 1. The
host starts each item at a boundary, as the rule assumes. -/
def Obligations.NoFalseNegatives : Prop :=
  ∀ (s t : State) (codes : List Nat) (ws : List Word), s.EngineInv → s.AtBoundary → (∀ c ∈ codes, c < 2 ^ 21) →
    (∀ w ∈ ws, startsLifetime s.params w = false) →
    runWords (insertWords codes ++ ws) s = .next t → t.AtBoundary →
    ∃ u, runWords (queryWords codes) t = .next u ∧
      u.rq = t.rq ++ List.replicate codes.length 0x20000000#32 ++ [0x40000001#32]

/-- R178: reset and a successful CONSTRUCT leave no slot set, and from a filter with no slot set, after any commands without
an INSERT, a query of any item answers 0. -/
def Obligations.EmptyFilterAnswersFalse : Prop :=
  (∀ (p : Params) (i : Nat), (State.resetWith p).memRead i = 0) ∧
  (∀ (w : Word) (s t : State) (i : Nat), startsLifetime s.params w = true → acceptWord w s = .next t →
    t.memRead i = 0) ∧
  (∀ (s t : State) (codes : List Nat) (ws : List Word), s.EngineInv → (∀ i, s.memRead i = 0) →
    (∀ c ∈ codes, c < 2 ^ 21) → (∀ w ∈ ws, decode w ≠ .cmd .insert) →
    runWords ws s = .next t →
    ∃ u, runWords (queryWords codes) t = .next u ∧
      u.rq = t.rq ++ List.replicate codes.length 0x20000000#32 ++ [0x40000000#32])

/-- R177: inserting an item twice gives the bit array of inserting it once. -/
def Obligations.InsertIsIdempotent : Prop :=
  ∀ (s : State) (codes : List Nat), s.EngineInv → s.AtBoundary → (∀ c ∈ codes, c < 2 ^ 21) →
    ∃ t u, runWords (insertWords codes) s = .next t ∧
      runWords (insertWords codes ++ insertWords codes) s = .next u ∧ u.bits = t.bits ∧ u.acc = t.acc

/-- R181: the bit array after a set of inserts is the union of the items' slots; neither it nor a later query's result depends
on their order. -/
def Obligations.InsertOrderIsIrrelevant : Prop :=
  ∀ (s : State) (items items' : List (List Nat)), s.EngineInv → s.AtBoundary →
    (∀ codes ∈ items, ∀ c ∈ codes, c < 2 ^ 21) → items.Perm items' →
    ∃ t t', runWords (items.flatMap insertWords) s = .next t ∧
      runWords (items'.flatMap insertWords) s = .next t' ∧
      t'.bits = t.bits ∧ t'.acc = t.acc ∧ t'.size = t.size ∧ t'.hashCount = t.hashCount ∧
      (∀ i, t.memRead i = 1 ↔ s.memRead i = 1 ∨ ∃ codes ∈ items, i ∈ hashValues codes s.hcNat s.sizeNat) ∧
      (∀ codes : List Nat, (∀ c ∈ codes, c < 2 ^ 21) →
        ∃ u u' answers, runWords (queryWords codes) t = .next u ∧ runWords (queryWords codes) t' = .next u' ∧
          u.rq = t.rq ++ answers ∧ u'.rq = t'.rq ++ answers)

/-- R121 (40_construct.md): a NOP between two CHAR commands of an item changes neither its hash values, which the lanes hold, nor
the slots that its INSERT sets. -/
def Obligations.NopInsideItemChangesNoHash : Prop :=
  ∀ (s : State) (a b : Nat), s.EngineInv → a < 2 ^ 21 → b < 2 ^ 21 →
    ∃ t u t' u', runWords [encode (.char a), encode .nop, encode (.char b)] s = .next t ∧
      runWords [encode (.char a), encode (.char b)] s = .next u ∧ t.acc = u.acc ∧
      runWords [encode (.char a), encode .nop, encode (.char b), encode .insert] s = .next t' ∧
      runWords [encode (.char a), encode (.char b), encode .insert] s = .next u' ∧
      t'.bits = u'.bits ∧ t'.acc = u'.acc

/-! ### The assembler (30_encoding.md) -/

/-- R110: an operand inside its field assembles to the word that decodes to it, and one outside is an assembly error. -/
def Obligations.AssemblerChecksFieldRanges : Prop :=
  ∀ (enc : CharEncoding) (size hashCount code value : Nat),
    (size < 2 ^ 20 ∧ hashCount < 2 ^ 8 → ∃ w, assembleLine enc (.construct size hashCount) = some [w] ∧
      decode w = .cmd (.construct size hashCount)) ∧
    (2 ^ 20 ≤ size ∨ 2 ^ 8 ≤ hashCount → assembleLine enc (.construct size hashCount) = none) ∧
    (code < 2 ^ 21 → ∃ w, assembleLine enc (.char code) = some [w] ∧ decode w = .cmd (.char code)) ∧
    (2 ^ 21 ≤ code → assembleLine enc (.char code) = none) ∧
    (value < 2 ^ 32 → ∃ w : Word, assembleLine enc (.word value) = some [w] ∧ w.toNat = value) ∧
    (2 ^ 32 ≤ value → assembleLine enc (.word value) = none)

/-- R111: the expansions of the pseudo-instructions, the empty string included. -/
def Obligations.PseudoInstructionExpansions : Prop :=
  ∀ (enc : CharEncoding) (s : List Char),
    assembleLine enc (.chars s) = some ((enc.codes s).map (fun c => encode (.char c))) ∧
    assembleLine enc (.inserts s) = some ((enc.codes s).map (fun c => encode (.char c)) ++ [encode .insert]) ∧
    assembleLine enc (.querys s) = some ((enc.codes s).map (fun c => encode (.char c)) ++ [encode .query]) ∧
    assembleLine enc .constructDefault = some [encode (.construct 100 3)] ∧
    (enc.codes s = [] → assembleLine enc (.inserts s) = some [encode .insert] ∧
      assembleLine enc (.querys s) = some [encode .query]) ∧
    (∀ c ∈ enc.codes s, decode (encode (.char c)) = .cmd (.char c))
end

