-- ==== Sys2Proof/Laws/State.lean ====
section
/-! SUPPORT. One lemma per field per state update, true by rfl, so that no later proof unfolds a record update. -/

namespace Sys2Proof.Machine

/-! ### clearLanes -/

@[simp] theorem State.clearLanes_params (s : State) : s.clearLanes.params = s.params := rfl
@[simp] theorem State.clearLanes_size (s : State) : s.clearLanes.size = s.size := rfl
@[simp] theorem State.clearLanes_hashCount (s : State) : s.clearLanes.hashCount = s.hashCount := rfl
@[simp] theorem State.clearLanes_acc (s : State) : s.clearLanes.acc = List.replicate s.params.hcMax 0 := rfl
@[simp] theorem State.clearLanes_bits (s : State) : s.clearLanes.bits = s.bits := rfl
@[simp] theorem State.clearLanes_rq (s : State) : s.clearLanes.rq = s.rq := rfl
@[simp] theorem State.clearLanes_n (s : State) : s.clearLanes.n = s.n := rfl
@[simp] theorem State.clearLanes_port (s : State) : s.clearLanes.port = s.port := rfl
@[simp] theorem State.clearLanes_taken (s : State) : s.clearLanes.taken = s.taken := rfl

/-! ### memWrite -/

@[simp] theorem State.memWrite_params (s : State) (i : Nat) (v : BitVec 1) : (s.memWrite i v).params = s.params := rfl
@[simp] theorem State.memWrite_size (s : State) (i : Nat) (v : BitVec 1) : (s.memWrite i v).size = s.size := rfl
@[simp] theorem State.memWrite_hashCount (s : State) (i : Nat) (v : BitVec 1) :
    (s.memWrite i v).hashCount = s.hashCount := rfl
@[simp] theorem State.memWrite_acc (s : State) (i : Nat) (v : BitVec 1) : (s.memWrite i v).acc = s.acc := rfl
@[simp] theorem State.memWrite_bits (s : State) (i : Nat) (v : BitVec 1) :
    (s.memWrite i v).bits = s.bits.write i v := rfl
@[simp] theorem State.memWrite_rq (s : State) (i : Nat) (v : BitVec 1) : (s.memWrite i v).rq = s.rq := rfl
@[simp] theorem State.memWrite_n (s : State) (i : Nat) (v : BitVec 1) : (s.memWrite i v).n = s.n := rfl
@[simp] theorem State.memWrite_port (s : State) (i : Nat) (v : BitVec 1) : (s.memWrite i v).port = s.port := rfl
@[simp] theorem State.memWrite_taken (s : State) (i : Nat) (v : BitVec 1) : (s.memWrite i v).taken = s.taken := rfl

/-! ### respond -/

@[simp] theorem State.respond_params (s : State) (opc : BitVec 4) (st : Status) (info : Info) (r : Bool) :
    (s.respond opc st info r).params = s.params := rfl
@[simp] theorem State.respond_size (s : State) (opc : BitVec 4) (st : Status) (info : Info) (r : Bool) :
    (s.respond opc st info r).size = s.size := rfl
@[simp] theorem State.respond_hashCount (s : State) (opc : BitVec 4) (st : Status) (info : Info) (r : Bool) :
    (s.respond opc st info r).hashCount = s.hashCount := rfl
@[simp] theorem State.respond_acc (s : State) (opc : BitVec 4) (st : Status) (info : Info) (r : Bool) :
    (s.respond opc st info r).acc = s.acc := rfl
@[simp] theorem State.respond_bits (s : State) (opc : BitVec 4) (st : Status) (info : Info) (r : Bool) :
    (s.respond opc st info r).bits = s.bits := rfl
@[simp] theorem State.respond_rq (s : State) (opc : BitVec 4) (st : Status) (info : Info) (r : Bool) :
    (s.respond opc st info r).rq = s.rq ++ [responseWord opc st info r] := rfl
@[simp] theorem State.respond_n (s : State) (opc : BitVec 4) (st : Status) (info : Info) (r : Bool) :
    (s.respond opc st info r).n = s.n := rfl
@[simp] theorem State.respond_port (s : State) (opc : BitVec 4) (st : Status) (info : Info) (r : Bool) :
    (s.respond opc st info r).port = s.port := rfl
@[simp] theorem State.respond_taken (s : State) (opc : BitVec 4) (st : Status) (info : Info) (r : Bool) :
    (s.respond opc st info r).taken = s.taken := rfl

/-! ### raise -/

@[simp] theorem State.raise_params (s : State) (opc : BitVec 4) (e : Err) (info : Info) :
    (s.raise opc e info).params = s.params := rfl
@[simp] theorem State.raise_size (s : State) (opc : BitVec 4) (e : Err) (info : Info) :
    (s.raise opc e info).size = s.size := rfl
@[simp] theorem State.raise_hashCount (s : State) (opc : BitVec 4) (e : Err) (info : Info) :
    (s.raise opc e info).hashCount = s.hashCount := rfl
@[simp] theorem State.raise_acc (s : State) (opc : BitVec 4) (e : Err) (info : Info) :
    (s.raise opc e info).acc = s.acc := rfl
@[simp] theorem State.raise_bits (s : State) (opc : BitVec 4) (e : Err) (info : Info) :
    (s.raise opc e info).bits = s.bits := rfl
@[simp] theorem State.raise_rq (s : State) (opc : BitVec 4) (e : Err) (info : Info) :
    (s.raise opc e info).rq = s.rq ++ [responseWord opc e.status info false] := rfl
@[simp] theorem State.raise_n (s : State) (opc : BitVec 4) (e : Err) (info : Info) :
    (s.raise opc e info).n = s.n := rfl
@[simp] theorem State.raise_port (s : State) (opc : BitVec 4) (e : Err) (info : Info) :
    (s.raise opc e info).port = s.port := rfl
@[simp] theorem State.raise_taken (s : State) (opc : BitVec 4) (e : Err) (info : Info) :
    (s.raise opc e info).taken = s.taken := rfl

/-! ### countCommand -/

@[simp] theorem State.countCommand_params (s : State) : s.countCommand.params = s.params := rfl
@[simp] theorem State.countCommand_size (s : State) : s.countCommand.size = s.size := rfl
@[simp] theorem State.countCommand_hashCount (s : State) : s.countCommand.hashCount = s.hashCount := rfl
@[simp] theorem State.countCommand_acc (s : State) : s.countCommand.acc = s.acc := rfl
@[simp] theorem State.countCommand_bits (s : State) : s.countCommand.bits = s.bits := rfl
@[simp] theorem State.countCommand_rq (s : State) : s.countCommand.rq = s.rq := rfl
@[simp] theorem State.countCommand_n (s : State) : s.countCommand.n = s.n + 1 := rfl
@[simp] theorem State.countCommand_port (s : State) : s.countCommand.port = s.port := rfl
@[simp] theorem State.countCommand_taken (s : State) : s.countCommand.taken = s.taken := rfl

/-! ### takeResponse -/

@[simp] theorem State.takeResponse_params (s : State) : s.takeResponse.params = s.params := rfl
@[simp] theorem State.takeResponse_size (s : State) : s.takeResponse.size = s.size := rfl
@[simp] theorem State.takeResponse_hashCount (s : State) : s.takeResponse.hashCount = s.hashCount := rfl
@[simp] theorem State.takeResponse_acc (s : State) : s.takeResponse.acc = s.acc := rfl
@[simp] theorem State.takeResponse_bits (s : State) : s.takeResponse.bits = s.bits := rfl
@[simp] theorem State.takeResponse_rq (s : State) : s.takeResponse.rq = s.rq.drop 1 := rfl
@[simp] theorem State.takeResponse_n (s : State) : s.takeResponse.n = s.n := rfl
@[simp] theorem State.takeResponse_port (s : State) : s.takeResponse.port = s.port := rfl
@[simp] theorem State.takeResponse_taken (s : State) : s.takeResponse.taken = s.taken ++ s.rq.take 1 := rfl

/-! ### offerWord -/

@[simp] theorem State.offerWord_params (s : State) (w : Word) : (s.offerWord w).params = s.params := rfl
@[simp] theorem State.offerWord_size (s : State) (w : Word) : (s.offerWord w).size = s.size := rfl
@[simp] theorem State.offerWord_hashCount (s : State) (w : Word) : (s.offerWord w).hashCount = s.hashCount := rfl
@[simp] theorem State.offerWord_acc (s : State) (w : Word) : (s.offerWord w).acc = s.acc := rfl
@[simp] theorem State.offerWord_bits (s : State) (w : Word) : (s.offerWord w).bits = s.bits := rfl
@[simp] theorem State.offerWord_rq (s : State) (w : Word) : (s.offerWord w).rq = s.rq := rfl
@[simp] theorem State.offerWord_n (s : State) (w : Word) : (s.offerWord w).n = s.n := rfl
@[simp] theorem State.offerWord_port (s : State) (w : Word) :
    (s.offerWord w).port = ⟨false, true, w, false⟩ :: s.port := rfl
@[simp] theorem State.offerWord_taken (s : State) (w : Word) : (s.offerWord w).taken = s.taken := rfl

/-! ### startFilter -/

@[simp] theorem State.startFilter_params (s : State) (size : SizeReg) (hc : HashCountReg) :
    (s.startFilter size hc).params = s.params := rfl
@[simp] theorem State.startFilter_size (s : State) (size : SizeReg) (hc : HashCountReg) :
    (s.startFilter size hc).size = size := rfl
@[simp] theorem State.startFilter_hashCount (s : State) (size : SizeReg) (hc : HashCountReg) :
    (s.startFilter size hc).hashCount = hc := rfl
@[simp] theorem State.startFilter_acc (s : State) (size : SizeReg) (hc : HashCountReg) :
    (s.startFilter size hc).acc = List.replicate s.params.hcMax 0 := rfl
@[simp] theorem State.startFilter_bits (s : State) (size : SizeReg) (hc : HashCountReg) :
    (s.startFilter size hc).bits = [] := rfl
@[simp] theorem State.startFilter_rq (s : State) (size : SizeReg) (hc : HashCountReg) :
    (s.startFilter size hc).rq = s.rq := rfl
@[simp] theorem State.startFilter_n (s : State) (size : SizeReg) (hc : HashCountReg) :
    (s.startFilter size hc).n = s.n := rfl
@[simp] theorem State.startFilter_port (s : State) (size : SizeReg) (hc : HashCountReg) :
    (s.startFilter size hc).port = s.port := rfl
@[simp] theorem State.startFilter_taken (s : State) (size : SizeReg) (hc : HashCountReg) :
    (s.startFilter size hc).taken = s.taken := rfl

/-! ### feedCode -/

@[simp] theorem State.feedCode_params (s : State) (code : Nat) : (s.feedCode code).params = s.params := rfl
@[simp] theorem State.feedCode_size (s : State) (code : Nat) : (s.feedCode code).size = s.size := rfl
@[simp] theorem State.feedCode_hashCount (s : State) (code : Nat) : (s.feedCode code).hashCount = s.hashCount := rfl
@[simp] theorem State.feedCode_acc (s : State) (code : Nat) :
    (s.feedCode code).acc = advanceLanes s.sizeNat code 1 s.hcNat s.acc := rfl
@[simp] theorem State.feedCode_bits (s : State) (code : Nat) : (s.feedCode code).bits = s.bits := rfl
@[simp] theorem State.feedCode_rq (s : State) (code : Nat) : (s.feedCode code).rq = s.rq := rfl
@[simp] theorem State.feedCode_n (s : State) (code : Nat) : (s.feedCode code).n = s.n := rfl
@[simp] theorem State.feedCode_port (s : State) (code : Nat) : (s.feedCode code).port = s.port := rfl
@[simp] theorem State.feedCode_taken (s : State) (code : Nat) : (s.feedCode code).taken = s.taken := rfl

/-! ### makeRoom -/

@[simp] theorem State.makeRoom_params (s : State) : s.makeRoom.params = s.params := rfl
@[simp] theorem State.makeRoom_size (s : State) : s.makeRoom.size = s.size := rfl
@[simp] theorem State.makeRoom_hashCount (s : State) : s.makeRoom.hashCount = s.hashCount := rfl
@[simp] theorem State.makeRoom_acc (s : State) : s.makeRoom.acc = s.acc := rfl
@[simp] theorem State.makeRoom_bits (s : State) : s.makeRoom.bits = s.bits := rfl
@[simp] theorem State.makeRoom_rq (s : State) : s.makeRoom.rq = s.rq.drop (s.rq.length + 1 - s.params.rspDepth) := rfl
@[simp] theorem State.makeRoom_n (s : State) : s.makeRoom.n = s.n := rfl
@[simp] theorem State.makeRoom_port (s : State) : s.makeRoom.port = s.port := rfl
@[simp] theorem State.makeRoom_taken (s : State) :
    s.makeRoom.taken = s.taken ++ s.rq.take (s.rq.length + 1 - s.params.rspDepth) := rfl

/-! ### resetWith and resetEdge -/

@[simp] theorem State.resetWith_params (p : Params) : (State.resetWith p).params = p := rfl
@[simp] theorem State.resetWith_size (p : Params) : (State.resetWith p).size = ⟨100, by decide⟩ := rfl
@[simp] theorem State.resetWith_hashCount (p : Params) : (State.resetWith p).hashCount = ⟨3, by decide⟩ := rfl
@[simp] theorem State.resetWith_acc (p : Params) : (State.resetWith p).acc = List.replicate p.hcMax 0 := rfl
@[simp] theorem State.resetWith_bits (p : Params) : (State.resetWith p).bits = [] := rfl
@[simp] theorem State.resetWith_rq (p : Params) : (State.resetWith p).rq = [] := rfl
@[simp] theorem State.resetWith_n (p : Params) : (State.resetWith p).n = 0 := rfl
@[simp] theorem State.resetWith_port (p : Params) : (State.resetWith p).port = [] := rfl
@[simp] theorem State.resetWith_taken (p : Params) : (State.resetWith p).taken = [] := rfl

@[simp] theorem State.resetEdge_port (s : State) : s.resetEdge.port = s.port := rfl
@[simp] theorem State.resetEdge_params (s : State) : s.resetEdge.params = s.params := rfl

/-! ### setSlots: only the bit array changes -/

theorem State.setSlots_eq (s : State) (is : List Nat) :
    s.setSlots is = { s with bits := is.foldl (fun m i => m.write i 1) s.bits } := by
  unfold State.setSlots
  induction is generalizing s with
  | nil => rfl
  | cons i is ih => simp only [List.foldl_cons]; rw [ih]; rfl

@[simp] theorem State.setSlots_params (s : State) (is : List Nat) :
    (s.setSlots is).params = s.params := by rw [State.setSlots_eq]
@[simp] theorem State.setSlots_size (s : State) (is : List Nat) :
    (s.setSlots is).size = s.size := by rw [State.setSlots_eq]
@[simp] theorem State.setSlots_hashCount (s : State) (is : List Nat) :
    (s.setSlots is).hashCount = s.hashCount := by rw [State.setSlots_eq]
@[simp] theorem State.setSlots_acc (s : State) (is : List Nat) :
    (s.setSlots is).acc = s.acc := by rw [State.setSlots_eq]
@[simp] theorem State.setSlots_bits (s : State) (is : List Nat) :
    (s.setSlots is).bits = is.foldl (fun m i => m.write i 1) s.bits := by rw [State.setSlots_eq]
@[simp] theorem State.setSlots_rq (s : State) (is : List Nat) :
    (s.setSlots is).rq = s.rq := by rw [State.setSlots_eq]
@[simp] theorem State.setSlots_n (s : State) (is : List Nat) :
    (s.setSlots is).n = s.n := by rw [State.setSlots_eq]
@[simp] theorem State.setSlots_port (s : State) (is : List Nat) :
    (s.setSlots is).port = s.port := by rw [State.setSlots_eq]
@[simp] theorem State.setSlots_taken (s : State) (is : List Nat) :
    (s.setSlots is).taken = s.taken := by rw [State.setSlots_eq]

/-! ### The accessors read one field each -/

theorem State.sizeNat_congr {s t : State} (h : t.size = s.size) : t.sizeNat = s.sizeNat := by
  unfold State.sizeNat; rw [h]

theorem State.hcNat_congr {s t : State} (h : t.hashCount = s.hashCount) : t.hcNat = s.hcNat := by
  unfold State.hcNat; rw [h]

theorem State.lane_congr {s t : State} (h : t.acc = s.acc) (j : Nat) : t.lane j = s.lane j := by
  unfold State.lane; rw [h]

theorem State.memRead_congr {s t : State} (h : t.bits = s.bits) (i : Nat) : t.memRead i = s.memRead i := by
  unfold State.memRead; rw [h]

theorem State.indices_congr {s t : State} (hh : t.hashCount = s.hashCount) (ha : t.acc = s.acc) :
    t.indices = s.indices := by
  unfold State.indices; rw [State.hcNat_congr hh]; simp only [State.lane_congr ha]

theorem State.sizeNat_pos (s : State) : 0 < s.sizeNat := s.size.pos

theorem State.hcNat_pos (s : State) : 0 < s.hcNat := s.hashCount.pos

theorem State.sizeNat_lt (s : State) : s.sizeNat < 2 ^ 20 := s.size.value.isLt

theorem State.hcNat_lt (s : State) : s.hcNat < 2 ^ 8 := s.hashCount.value.isLt

@[simp] theorem State.lane_zero (s : State) : s.lane 0 = 0 := rfl

end Sys2Proof.Machine
end

