-- ==== Sys2Proof/Laws/Lanes.lean ====
section
/-! SUPPORT. The lanes: what CHAR and the lane clear leave in each of them, and the hash as a fold. -/

namespace Sys2Proof.Machine

theorem laneStep_lt {size : Nat} (h : 0 < size) (seed a code : Nat) : laneStep seed size a code < size :=
  Nat.mod_lt _ h

@[simp] theorem advanceLanes_length (size code seed active : Nat) (lanes : List Lane) :
    (advanceLanes size code seed active lanes).length = lanes.length := by
  induction lanes generalizing seed active with
  | nil => cases active <;> rfl
  | cons a lanes ih => cases active with
    | zero => rfl
    | succ k => simp [advanceLanes, ih]

/-- The lane at place `k` of the list, counted from 0, has seed `seed + k`. -/
theorem advanceLanes_getD (size code seed active : Nat) (lanes : List Lane) (k : Nat) (hk : k < lanes.length) :
    (advanceLanes size code seed active lanes).getD k 0 =
      if k < active then BitVec.ofNat 20 (laneStep (seed + k) size (lanes.getD k 0).toNat code)
      else lanes.getD k 0 := by
  induction lanes generalizing seed active k with
  | nil => simp at hk
  | cons a lanes ih =>
    cases active with
    | zero => simp [advanceLanes]
    | succ active =>
      cases k with
      | zero => simp [advanceLanes]
      | succ k =>
        have := ih (seed + 1) active k (by simpa using hk)
        simp only [advanceLanes, List.getD_cons_succ, this, Nat.add_lt_add_iff_right]
        rw [show seed + 1 + k = seed + (k + 1) by omega]

/-- ACC[j] for j ≥ 1, as a place in the list. -/
theorem State.lane_pos (s : State) {j : Nat} (h : 1 ≤ j) : s.lane j = s.acc.getD (j - 1) 0 := by
  unfold State.lane; rw [if_neg (by omega)]

/-- A cleared lane file reads 0 in every lane. -/
theorem State.lane_of_replicate {s : State} {k : Nat} (h : s.acc = List.replicate k 0) (j : Nat) :
    s.lane j = 0 := by
  unfold State.lane; rw [h]
  split
  · rfl
  · simp only [List.getD_eq_getElem?_getD, List.getElem?_replicate]; split <;> rfl

@[simp] theorem State.lane_clearLanes (s : State) (j : Nat) : s.clearLanes.lane j = 0 :=
  State.lane_of_replicate (State.clearLanes_acc s) j

/-- At a boundary every lane is 0. -/
theorem State.AtBoundary_lane {s : State} (h : ∀ a ∈ s.acc, a = 0) (j : Nat) : s.lane j = 0 := by
  unfold State.lane
  split
  · rfl
  · rw [List.getD_eq_getElem?_getD]
    cases hx : s.acc[j - 1]? with
    | none => rfl
    | some a => exact h a (List.mem_of_getElem? hx)

/-- CHAR in an active lane (41_hash_pipeline.md R143). -/
theorem State.lane_feedCode_active {s : State} (hlen : s.hcNat ≤ s.acc.length) (code : Nat) {j : Nat}
    (h1 : 1 ≤ j) (hj : j ≤ s.hcNat) :
    ((s.feedCode code).lane j).toNat = laneStep j s.sizeNat (s.lane j).toNat code := by
  rw [State.lane_pos _ h1, State.lane_pos _ h1, State.feedCode_acc,
    advanceLanes_getD _ _ _ _ _ _ (by omega), if_pos (by omega), show 1 + (j - 1) = j by omega,
    BitVec.toNat_ofNat, Nat.mod_eq_of_lt]
  exact Nat.lt_trans (laneStep_lt s.sizeNat_pos _ _ _) s.sizeNat_lt

/-- CHAR in an inactive lane (10_state.md R37). -/
theorem State.lane_feedCode_inactive (s : State) (code : Nat) {j : Nat} (hj : s.hcNat < j) :
    (s.feedCode code).lane j = s.lane j := by
  rw [State.lane_pos _ (by omega), State.lane_pos _ (by omega), State.feedCode_acc]
  by_cases hk : j - 1 < s.acc.length
  · rw [advanceLanes_getD _ _ _ _ _ _ hk, if_neg (by omega)]
  · rw [List.getD_eq_getElem?_getD, List.getD_eq_getElem?_getD, List.getElem?_eq_none (by simp; omega),
      List.getElem?_eq_none (by omega)]

/-- Lane files of one length that read alike are equal. -/
theorem State.acc_ext {s t : State} (hlen : s.acc.length = t.acc.length)
    (h : ∀ j, 1 ≤ j → j ≤ s.acc.length → s.lane j = t.lane j) : s.acc = t.acc := by
  refine List.ext_getElem hlen fun k h1 h2 => ?_
  have := h (k + 1) (by omega) (by omega)
  rw [State.lane_pos _ (by omega), State.lane_pos _ (by omega), Nat.add_sub_cancel] at this
  simpa [List.getD_eq_getElem?_getD, List.getElem?_eq_getElem h1, List.getElem?_eq_getElem h2] using this

/-! ### The indices -/

theorem State.mem_indices {s : State} {i : Nat} :
    i ∈ s.indices ↔ ∃ j, 1 ≤ j ∧ j ≤ s.hcNat ∧ (s.lane j).toNat = i := by
  simp only [State.indices, List.mem_map, List.mem_range'_1]
  constructor
  · rintro ⟨j, ⟨h1, h2⟩, rfl⟩; exact ⟨j, h1, by omega, rfl⟩
  · rintro ⟨j, h1, h2, rfl⟩; exact ⟨j, ⟨h1, by omega⟩, rfl⟩

/-- No index is missing when every active lane is below SIZE_MAX. -/
theorem State.missingSlot_none {s : State}
    (h : ∀ j, 1 ≤ j → j ≤ s.hcNat → (s.lane j).toNat < s.params.sizeMax) :
    s.missingSlot s.indices = none := by
  refine List.find?_eq_none.mpr fun i hi => ?_
  obtain ⟨j, h1, h2, rfl⟩ := State.mem_indices.mp hi
  simpa using h j h1 h2

/-- A reported missing slot is not in the address space. -/
theorem State.missingSlot_some {s : State} {is : List Nat} {i : Nat} (h : s.missingSlot is = some i) :
    i ∈ is ∧ s.params.sizeMax ≤ i :=
  ⟨List.mem_of_find?_eq_some h, by simpa using List.find?_some h⟩

/-- Some index is missing when one active lane is at or above SIZE_MAX. -/
theorem State.missingSlot_isSome {s : State} {j : Nat} (h1 : 1 ≤ j) (h2 : j ≤ s.hcNat)
    (h : s.params.sizeMax ≤ (s.lane j).toNat) : ∃ i, s.missingSlot s.indices = some i := by
  cases hm : s.missingSlot s.indices with
  | some i => exact ⟨i, rfl⟩
  | none =>
    have := List.find?_eq_none.mp hm _ (State.mem_indices.mpr ⟨j, h1, h2, rfl⟩)
    simp at this; omega

/-- The AND of the tested slots is 1 exactly when each is 1 (42_bitarray.md R169). -/
theorem State.allSet_iff {s : State} {is : List Nat} : s.allSet is = true ↔ ∀ i ∈ is, s.memRead i = 1 := by
  simp [State.allSet]

/-! ### The hash as a fold -/

@[simp] theorem refHash_nil (seed size : Nat) : refHash [] seed size = 0 := rfl

theorem refHash_append_singleton (codes : List Nat) (c seed size : Nat) :
    refHash (codes ++ [c]) seed size = laneStep seed size (refHash codes seed size) c := by
  simp [refHash]

theorem refHash_lt (codes : List Nat) (seed : Nat) {size : Nat} (h : 0 < size) : refHash codes seed size < size := by
  induction codes using List.reverseRecOn with
  | nil => exact h
  | append_singleton codes c _ => rw [refHash_append_singleton]; exact laneStep_lt h _ _ _

theorem mem_hashValues {codes : List Nat} {hc size i : Nat} :
    i ∈ hashValues codes hc size ↔ ∃ j, 1 ≤ j ∧ j ≤ hc ∧ refHash codes j size = i := by
  simp only [hashValues, List.mem_map, List.mem_range'_1]
  constructor
  · rintro ⟨j, ⟨h1, h2⟩, rfl⟩; exact ⟨j, h1, by omega, rfl⟩
  · rintro ⟨j, h1, h2, rfl⟩; exact ⟨j, ⟨h1, by omega⟩, rfl⟩

end Sys2Proof.Machine
end

