-- ==== Sys2Proof/Laws/Memory.lean ====
section
/-! SUPPORT. The memory laws: a read after a write, the canonical form kept by every operation, and equality of canonical
memories that read alike. -/

namespace Sys2Proof.Machine

@[simp] theorem Memory.read_nil (i : Nat) : Memory.read [] i = 0 := rfl

theorem Memory.read_cons (a : Nat) (v : BitVec 1) (m : Memory) (i : Nat) :
    Memory.read ((a, v) :: m) i = if a = i then v else Memory.read m i := rfl

/-- A slot that is not listed reads 0. -/
theorem Memory.read_eq_zero_of_lt {m : Memory} {i : Nat} (h : ∀ c ∈ m, i < c.1) : Memory.read m i = 0 := by
  induction m with
  | nil => rfl
  | cons c m ih =>
    obtain ⟨a, v⟩ := c
    have ha : i < a := h (a, v) (by simp)
    rw [Memory.read_cons, if_neg (by omega), ih fun c hc => h c (by simp [hc])]

/-- A one-bit value is 0 or 1. -/
theorem bit_cases (v : BitVec 1) : v = 0 ∨ v = 1 := by
  revert v; decide

/-- Setting a slot reads back 1 there and changes no other slot, whatever list holds the memory. -/
theorem Memory.read_set (m : Memory) (i k : Nat) :
    (m.write i 1).read k = if i = k then 1 else m.read k := by
  induction m with
  | nil => simp [Memory.write, Memory.read_cons]
  | cons c m ih =>
    obtain ⟨a, v⟩ := c
    unfold Memory.write
    rw [if_neg (by decide : ¬ (1 : BitVec 1) = 0)]
    split
    · simp [Memory.read_cons]
    · split
      · rename_i h; subst h; rw [if_neg (by decide : ¬ (1 : BitVec 1) = 0)]
        simp only [Memory.read_cons]; split <;> simp_all
      · rw [Memory.read_cons, ih, Memory.read_cons]
        split
        · rename_i h; subst h; simp_all
        · rfl

/-- A read after a write in a canonical memory (either value). -/
theorem Memory.read_write {m : Memory} (hm : m.wf) (i k : Nat) (v : BitVec 1) :
    (m.write i v).read k = if i = k then v else m.read k := by
  rcases bit_cases v with rfl | rfl
  · induction m with
    | nil => simp [Memory.write]
    | cons c m ih =>
      obtain ⟨a, x⟩ := c
      obtain ⟨hp, hz⟩ := hm
      rw [List.pairwise_cons] at hp
      have hm' : Memory.wf m := ⟨hp.2, fun c hc => hz c (by simp [hc])⟩
      unfold Memory.write
      rw [if_pos rfl]
      split
      · rename_i hlt
        split
        · rename_i h; subst h
          rw [Memory.read_cons, if_neg (by omega)]
          exact Memory.read_eq_zero_of_lt fun c hc => by have := hp.1 c hc; simp at this; omega
        · rfl
      · split
        · rename_i h; subst h; rw [if_pos rfl, Memory.read_cons]
          split
          · rename_i h; subst h
            exact Memory.read_eq_zero_of_lt fun c hc => hp.1 c hc
          · rfl
        · rw [Memory.read_cons, ih hm', Memory.read_cons]
          split
          · rename_i h; subst h; rw [if_neg (by omega)]
          · rfl
  · exact Memory.read_set m i k

/-- Every index of a written memory was listed before or is the written one. -/
theorem Memory.mem_write {m : Memory} {i : Nat} {v : BitVec 1} {c : Nat × BitVec 1} (h : c ∈ m.write i v) :
    c ∈ m ∨ (c = (i, v) ∧ v ≠ 0) := by
  induction m with
  | nil => unfold Memory.write at h; split at h <;> simp_all
  | cons d m ih =>
    obtain ⟨a, x⟩ := d
    unfold Memory.write at h
    split at h
    · split at h
      · exact Or.inl h
      · rename_i hv; rcases List.mem_cons.mp h with h | h
        · exact Or.inr ⟨h, hv⟩
        · exact Or.inl h
    · split at h
      · split at h
        · exact Or.inl (by simp [h])
        · rename_i hv; rcases List.mem_cons.mp h with h | h
          · exact Or.inr ⟨h, hv⟩
          · exact Or.inl (by simp [h])
      · rcases List.mem_cons.mp h with h | h
        · exact Or.inl (by simp [h])
        · rcases ih h with h | h
          · exact Or.inl (by simp [h])
          · exact Or.inr h

/-- A write keeps the canonical form. -/
theorem Memory.write_wf {m : Memory} (hm : m.wf) (i : Nat) (v : BitVec 1) : (m.write i v).wf := by
  refine ⟨?_, fun c hc => ?_⟩
  · induction m with
    | nil => unfold Memory.write; split <;> simp
    | cons d m ih =>
      obtain ⟨a, x⟩ := d
      obtain ⟨hp, hz⟩ := hm
      have hp' := List.pairwise_cons.mp hp
      have hm' : Memory.wf m := ⟨hp'.2, fun c hc => hz c (by simp [hc])⟩
      unfold Memory.write
      split
      · rename_i hlt
        split
        · exact hp
        · refine List.pairwise_cons.mpr ⟨fun c hc => ?_, hp⟩
          rcases List.mem_cons.mp hc with rfl | hc
          · exact hlt
          · have := hp'.1 c hc; simp at this; simp; omega
      · split
        · rename_i h; subst h
          split
          · exact hp'.2
          · exact List.pairwise_cons.mpr ⟨fun c hc => hp'.1 c hc, hp'.2⟩
        · refine List.pairwise_cons.mpr ⟨fun c hc => ?_, ih hm'⟩
          rcases Memory.mem_write hc with hc | ⟨rfl, -⟩
          · exact hp'.1 c hc
          · simp; omega
  · rcases Memory.mem_write hc with hc | ⟨rfl, hv⟩
    · exact hm.2 c hc
    · exact hv

/-- A run of set slots: each of them reads 1, and every other slot as before. -/
theorem Memory.read_foldl_set (is : List Nat) (m : Memory) (k : Nat) :
    (is.foldl (fun m i => m.write i 1) m).read k = if k ∈ is then 1 else m.read k := by
  induction is generalizing m with
  | nil => simp
  | cons i is ih =>
    rw [List.foldl_cons, ih, Memory.read_set]
    by_cases h : k ∈ is
    · simp [h]
    · by_cases hi : k = i
      · simp [hi]
      · simp [h, hi, Ne.symm hi]

/-- A run of set slots keeps the canonical form. -/
theorem Memory.foldl_set_wf (is : List Nat) {m : Memory} (hm : m.wf) :
    Memory.wf (is.foldl (fun m i => m.write i 1) m) := by
  induction is generalizing m with
  | nil => exact hm
  | cons i is ih => exact ih (Memory.write_wf hm i 1)

/-- The first listed slot of a canonical memory is the least index that reads other than 0. -/
theorem Memory.read_head {a : Nat} {v : BitVec 1} {m : Memory} (hm : Memory.wf ((a, v) :: m)) :
    Memory.read ((a, v) :: m) a ≠ 0 ∧ ∀ i < a, Memory.read ((a, v) :: m) i = 0 := by
  refine ⟨by rw [Memory.read_cons, if_pos rfl]; exact hm.2 (a, v) (by simp), fun i hi => ?_⟩
  rw [Memory.read_cons, if_neg (by omega)]
  have hp := List.pairwise_cons.mp hm.1
  exact Memory.read_eq_zero_of_lt fun c hc => by have := hp.1 c hc; simp at this; omega

/-- Canonical memories that read alike are equal. -/
theorem Memory.ext_read {m m' : Memory} (hm : m.wf) (hm' : m'.wf) (h : ∀ i, m.read i = m'.read i) : m = m' := by
  induction m generalizing m' with
  | nil =>
    cases m' with
    | nil => rfl
    | cons c m' => obtain ⟨a, v⟩ := c; exact absurd (h a).symm (Memory.read_head hm').1
  | cons c m ih =>
    obtain ⟨a, v⟩ := c
    cases m' with
    | nil => exact absurd (h a) (Memory.read_head hm).1
    | cons c' m' =>
      obtain ⟨a', v'⟩ := c'
      have haa : a = a' := by
        rcases Nat.lt_trichotomy a a' with hlt | heq | hlt
        · exact absurd ((h a).trans ((Memory.read_head hm').2 a hlt)) (Memory.read_head hm).1
        · exact heq
        · exact absurd ((h a').symm.trans ((Memory.read_head hm).2 a' hlt)) (Memory.read_head hm').1
      subst haa
      have hv : v = v' := by have := h a; simpa [Memory.read_cons] using this
      subst hv
      have hp := List.pairwise_cons.mp hm.1
      have hp' := List.pairwise_cons.mp hm'.1
      have htail : m = m' := by
        refine ih ⟨hp.2, fun c hc => hm.2 c (by simp [hc])⟩ ⟨hp'.2, fun c hc => hm'.2 c (by simp [hc])⟩ fun i => ?_
        by_cases hi : a = i
        · subst hi
          rw [Memory.read_eq_zero_of_lt fun c hc => hp.1 c hc, Memory.read_eq_zero_of_lt fun c hc => hp'.1 c hc]
        · have := h i; simpa [Memory.read_cons, hi] using this
      rw [htail]

/-- The empty memory of reset and of a new filter is in canonical form. -/
theorem Memory.nil_wf : Memory.wf [] := ⟨List.Pairwise.nil, by simp⟩

/-! ### The slots of the state -/

/-- The reset memory is in canonical form. -/
theorem State.reset_bits_wf : State.reset.bits.wf := Memory.nil_wf

/-- MemWrite keeps the canonical form. -/
theorem State.memWrite_wf {s : State} (h : s.bits.wf) (i : Nat) (v : BitVec 1) : (s.memWrite i v).bits.wf :=
  Memory.write_wf h i v

/-- MemRead after MemWrite. -/
theorem State.memRead_memWrite {s : State} (h : s.bits.wf) (i k : Nat) (v : BitVec 1) :
    (s.memWrite i v).memRead k = if i = k then v else s.memRead k := Memory.read_write h i k v

/-- INSERT's writes: each of the indices reads 1, and every other slot as before. -/
theorem State.memRead_setSlots (s : State) (is : List Nat) (k : Nat) :
    (s.setSlots is).memRead k = if k ∈ is then 1 else s.memRead k := by
  unfold State.memRead; rw [State.setSlots_bits]; exact Memory.read_foldl_set is s.bits k

/-- INSERT's writes keep the canonical form. -/
theorem State.setSlots_wf {s : State} (h : s.bits.wf) (is : List Nat) : (s.setSlots is).bits.wf := by
  rw [State.setSlots_bits]; exact Memory.foldl_set_wf is h

end Sys2Proof.Machine
end

