-- ==== Sys2Proof/Laws/Words.lean ====
section
/-! SUPPORT. Fields of words: bounds, the fields of an encoded command and of a response word, and the inversion of the
decoder. -/

namespace Sys2Proof

theorem field_lt (w : Word) (hi lo : Nat) : field w hi lo < 2 ^ (hi + 1 - lo) :=
  Nat.mod_lt _ (Nat.two_pow_pos _)

/-- A word is its OPC field and its other 28 bits. -/
theorem toNat_eq_fields (w : Word) : w.toNat = field w 31 28 * 2 ^ 28 + field w 27 0 := by
  have := w.isLt
  simp only [field]; omega

/-- The number an encoded word holds. -/
theorem opcodeWord_toNat {opc rest : Nat} (h1 : opc < 2 ^ 4) (h2 : rest < 2 ^ 28) :
    (opcodeWord opc rest).toNat = opc * 2 ^ 28 + rest := by
  rw [opcodeWord, BitVec.toNat_ofNat, Nat.mod_eq_of_lt (by omega)]

theorem field_opcodeWord {opc rest : Nat} (h1 : opc < 2 ^ 4) (h2 : rest < 2 ^ 28) :
    field (opcodeWord opc rest) 31 28 = opc := by
  rw [field, opcodeWord_toNat h1 h2]; omega

theorem field_opcodeWord_low {opc rest hi lo : Nat} (h1 : opc < 2 ^ 4) (h2 : rest < 2 ^ 28) (hhi : hi < 28) (hlo : lo ≤ hi) :
    field (opcodeWord opc rest) hi lo = rest / 2 ^ lo % 2 ^ (hi + 1 - lo) := by
  rw [field, opcodeWord_toNat h1 h2]
  have hsplit : 2 ^ 28 = 2 ^ lo * (2 ^ (hi + 1 - lo) * 2 ^ (27 - hi)) := by
    rw [← Nat.pow_add, ← Nat.pow_add]; congr 1; omega
  rw [hsplit, Nat.mul_left_comm, Nat.mul_add_div (Nat.two_pow_pos lo), Nat.mul_left_comm, Nat.mul_add_mod]

/-- A word is determined by its number. -/
theorem eq_opcodeWord {w : Word} {opc rest : Nat} (h1 : field w 31 28 = opc) (h2 : field w 27 0 = rest) :
    opcodeWord opc rest = w := by
  refine BitVec.eq_of_toNat_eq ?_
  have ho := field_lt w 31 28
  have hr := field_lt w 27 0
  rw [opcodeWord_toNat (by omega) (by omega), toNat_eq_fields w, h1, h2]

/-- What a decoded command says of its word: one case per row of the opcode map (30_encoding.md R95). -/
theorem decode_cmd_cases {w : Word} {i : Instr} (h : decode w = .cmd i) :
    (field w 31 28 = 0 ∧ field w 27 0 = 0 ∧ i = .nop) ∨
    (field w 31 28 = 1 ∧ i = .construct (field w 19 0) (field w 27 20)) ∨
    (field w 31 28 = 2 ∧ field w 27 21 = 0 ∧ i = .char (field w 20 0)) ∨
    (field w 31 28 = 3 ∧ field w 27 0 = 0 ∧ i = .insert) ∨
    (field w 31 28 = 4 ∧ field w 27 0 = 0 ∧ i = .query) := by
  unfold decode reservedZero at h
  split at h <;> (try split at h) <;> simp_all

/-- What a rejected word looks like (30_encoding.md R97). -/
theorem decode_illegal_cases {w : Word} {why : Illegal} (h : decode w = .illegal why) :
    (why = .opcReserved ∧ 5 ≤ field w 31 28) ∨
    (why = .fieldNonzero ∧ field w 31 28 ∈ [0, 3, 4] ∧ field w 27 0 ≠ 0) ∨
    (why = .fieldNonzero ∧ field w 31 28 = 2 ∧ field w 27 21 ≠ 0) := by
  unfold decode reservedZero at h
  split at h <;> (try split at h) <;> simp_all
  omega

theorem decode_of_opc_reserved {w : Word} (h : 5 ≤ field w 31 28) : decode w = .illegal .opcReserved := by
  unfold decode
  split <;> first | omega | rfl

theorem decode_of_format_z {w : Word} (h : field w 31 28 ∈ [0, 3, 4]) (hr : field w 27 0 ≠ 0) :
    decode w = .illegal .fieldNonzero := by
  simp only [List.mem_cons, List.not_mem_nil, or_false] at h
  rcases h with h | h | h <;> simp [decode, reservedZero, h, hr]

theorem decode_of_format_x {w : Word} (h : field w 31 28 = 2) (hr : field w 27 21 ≠ 0) :
    decode w = .illegal .fieldNonzero := by
  simp [decode, reservedZero, h, hr]

namespace Machine

theorem Info.code_lt (info : Info) : info.code < 2 ^ 4 := by
  obtain ⟨a, b, c, d⟩ := info
  revert a b c d; decide

theorem Status.code_le (st : Status) : st.code ≤ 2 := by cases st <;> decide

/-- The number a response word holds. -/
theorem responseWord_toNat (opc : BitVec 4) (st : Status) (info : Info) (r : Bool) :
    (responseWord opc st info r).toNat =
      opc.toNat * 2 ^ 28 + info.code * 2 ^ 8 + st.code * 2 ^ 4 + r.toNat := by
  have h1 := opc.isLt
  have h2 := info.code_lt
  have h3 := st.code_le
  have h4 := r.toNat_le
  rw [responseWord, BitVec.toNat_ofNat, Nat.mod_eq_of_lt (by omega)]

end Machine

end Sys2Proof
end

