-- ==== Sys2Proof/Laws/Exec.lean ====
section
/-! SUPPORT. Said once: what each meaning, an accepted word, and a step can do. Later proofs cite these and do not unfold
the machine again. -/

namespace Sys2Proof.Machine

/-! ### The meanings -/

theorem execNop_eq (s : State) : exec .nop s = .next (s.respond 0x0 .ok .none false) := rfl

theorem execConstruct_legal {s : State} {size hashCount : Nat} (h1 : sizeBad s.params size = false)
    (h2 : hcBad s.params hashCount = false) :
    exec (.construct size hashCount) s = .next ((s.startFilter (.ofChecked s.params size h1)
      (.ofChecked s.params hashCount h2)).respond 0x1 .ok .none false) := by
  simp only [exec, execConstruct]; rw [dif_pos ⟨h1, h2⟩]

theorem execConstruct_illegal {s : State} {size hashCount : Nat}
    (h : ¬ (sizeBad s.params size = false ∧ hcBad s.params hashCount = false)) :
    exec (.construct size hashCount) s = .next (s.raise 0x1 .invalidConfiguration
      { sizeBad := sizeBad s.params size, hcBad := hcBad s.params hashCount }) := by
  simp only [exec, execConstruct]; rw [dif_neg h]

theorem execChar_eq (code : Nat) (s : State) :
    exec (.char code) s = .next ((s.feedCode code).respond 0x2 .ok .none false) := rfl

theorem execInsert_next {s : State} (h : s.missingSlot s.indices = none) :
    exec .insert s = .next ((s.setSlots s.indices).clearLanes.respond 0x3 .ok .none false) := by
  simp only [exec, execInsert, h]

theorem execInsert_fault {s : State} {i : Nat} (h : s.missingSlot s.indices = some i) :
    exec .insert s = .fault (.noSuchSlot i) := by
  simp only [exec, execInsert, h]

theorem execQuery_next {s : State} (h : s.missingSlot s.indices = none) :
    exec .query s = .next (s.clearLanes.respond 0x4 .ok .none (s.allSet s.indices)) := by
  simp only [exec, execQuery, h]

theorem execQuery_fault {s : State} {i : Nat} (h : s.missingSlot s.indices = some i) :
    exec .query s = .fault (.noSuchSlot i) := by
  simp only [exec, execQuery, h]

/-! ### CONSTRUCT's range checks -/

theorem sizeBad_iff {p : Params} {size : Nat} : sizeBad p size = true ↔ size = 0 ∨ p.sizeMax < size := by
  simp [sizeBad]

theorem hcBad_iff {p : Params} {hc : Nat} : hcBad p hc = true ↔ hc = 0 ∨ p.hcMax < hc := by
  simp [hcBad]

theorem sizeBad_false_iff {p : Params} {size : Nat} : sizeBad p size = false ↔ 1 ≤ size ∧ size ≤ p.sizeMax := by
  rw [← Bool.not_eq_true, sizeBad_iff]; omega

theorem hcBad_false_iff {p : Params} {hc : Nat} : hcBad p hc = false ↔ 1 ≤ hc ∧ hc ≤ p.hcMax := by
  rw [← Bool.not_eq_true, hcBad_iff]; omega

theorem SizeReg.ofChecked_toNat {p : Params} {size : Nat} (h : sizeBad p size = false) :
    (SizeReg.ofChecked p size h).value.toNat = size := by
  have := p.sizeMax_le
  have := sizeBad_false_iff.mp h
  rw [SizeReg.ofChecked, BitVec.toNat_ofNat, Nat.mod_eq_of_lt (by omega)]

theorem HashCountReg.ofChecked_toNat {p : Params} {hc : Nat} (h : hcBad p hc = false) :
    (HashCountReg.ofChecked p hc h).value.toNat = hc := by
  have := p.hcMax_le
  have := hcBad_false_iff.mp h
  rw [HashCountReg.ofChecked, BitVec.toNat_ofNat, Nat.mod_eq_of_lt (by omega)]

/-! ### One accepted word -/

/-- Everything an accepted word can do when it answers a next state. -/
theorem acceptWord_cases {w : Word} {s t : State} (h : acceptWord w s = .next t) :
    (∃ why, decode w = .illegal why ∧
      t = s.countCommand.raise (opcOf w) .illegalCommand (illegalInfo why)) ∨
    (decode w = .cmd .nop ∧ t = s.countCommand.respond 0x0 .ok .none false) ∨
    (∃ (size hc : Nat) (h1 : sizeBad s.params size = false) (h2 : hcBad s.params hc = false),
      decode w = .cmd (.construct size hc) ∧
      t = (s.countCommand.startFilter (.ofChecked s.params size h1) (.ofChecked s.params hc h2)).respond
        0x1 .ok .none false) ∨
    (∃ size hc : Nat, decode w = .cmd (.construct size hc) ∧
      ¬ (sizeBad s.params size = false ∧ hcBad s.params hc = false) ∧
      t = s.countCommand.raise 0x1 .invalidConfiguration
        { sizeBad := sizeBad s.params size, hcBad := hcBad s.params hc }) ∨
    (∃ code : Nat, decode w = .cmd (.char code) ∧
      t = (s.countCommand.feedCode code).respond 0x2 .ok .none false) ∨
    (decode w = .cmd .insert ∧
      t = (s.countCommand.setSlots s.indices).clearLanes.respond 0x3 .ok .none false) ∨
    (decode w = .cmd .query ∧
      t = s.countCommand.clearLanes.respond 0x4 .ok .none (s.allSet s.indices)) := by
  unfold acceptWord at h
  split at h
  · rename_i i hi
    cases i with
    | nop => exact .inr (.inl ⟨hi, by rw [execNop_eq] at h; exact (Host.Outcome.next.inj h).symm⟩)
    | construct size hc =>
      by_cases hc' : sizeBad s.params size = false ∧ hcBad s.params hc = false
      · rw [execConstruct_legal (s := s.countCommand) hc'.1 hc'.2] at h
        exact .inr (.inr (.inl ⟨size, hc, hc'.1, hc'.2, hi, (Host.Outcome.next.inj h).symm⟩))
      · rw [execConstruct_illegal (s := s.countCommand) hc'] at h
        exact .inr (.inr (.inr (.inl ⟨size, hc, hi, hc', (Host.Outcome.next.inj h).symm⟩)))
    | char code =>
      rw [execChar_eq] at h
      exact .inr (.inr (.inr (.inr (.inl ⟨code, hi, (Host.Outcome.next.inj h).symm⟩))))
    | insert =>
      cases hm : s.countCommand.missingSlot s.countCommand.indices with
      | some k => rw [execInsert_fault hm] at h; cases h
      | none =>
        rw [execInsert_next hm] at h
        exact .inr (.inr (.inr (.inr (.inr (.inl ⟨hi, (Host.Outcome.next.inj h).symm⟩)))))
    | query =>
      cases hm : s.countCommand.missingSlot s.countCommand.indices with
      | some k => rw [execQuery_fault hm] at h; cases h
      | none =>
        rw [execQuery_next hm] at h
        exact .inr (.inr (.inr (.inr (.inr (.inr ⟨hi, (Host.Outcome.next.inj h).symm⟩)))))
  · rename_i why hi
    exact .inl ⟨why, hi, (Host.Outcome.next.inj h).symm⟩

/-- The word of a well-formed command, once it is known to decode to it, runs that command. -/
theorem acceptWord_of_decode {w : Word} {i : Instr} (h : decode w = .cmd i) (s : State) :
    acceptWord w s = exec i s.countCommand := by
  simp only [acceptWord, h]

/-- A rejected word is answered with ILLEGAL_COMMAND. -/
theorem acceptWord_of_illegal {w : Word} {why : Illegal} (h : decode w = .illegal why) (s : State) :
    acceptWord w s = .next (s.countCommand.raise (opcOf w) .illegalCommand (illegalInfo why)) := by
  simp only [acceptWord, h]

/-- An accepted word stops only where an active lane is at or above SIZE_MAX. -/
theorem acceptWord_next {s : State} (h : ∀ j, 1 ≤ j → j ≤ s.hcNat → (s.lane j).toNat < s.params.sizeMax)
    (w : Word) : ∃ t, acceptWord w s = .next t := by
  have hm : s.countCommand.missingSlot s.countCommand.indices = none := State.missingSlot_none h
  cases hd : decode w with
  | illegal why => exact ⟨_, acceptWord_of_illegal hd s⟩
  | cmd i =>
    rw [acceptWord_of_decode hd]
    cases i with
    | nop => exact ⟨_, execNop_eq _⟩
    | construct size hc =>
      by_cases hc' : sizeBad s.params size = false ∧ hcBad s.params hc = false
      · exact ⟨_, execConstruct_legal (s := s.countCommand) hc'.1 hc'.2⟩
      · exact ⟨_, execConstruct_illegal (s := s.countCommand) hc'⟩
    | char code => exact ⟨_, execChar_eq _ _⟩
    | insert => exact ⟨_, execInsert_next hm⟩
    | query => exact ⟨_, execQuery_next hm⟩

/-! ### Runs of words -/

@[simp] theorem runWords_nil (s : State) : runWords [] s = .next s := rfl

/-- A run that answers a next state, one word at a time. -/
theorem runWords_cons_next {w : Word} {ws : List Word} {s t : State} :
    runWords (w :: ws) s = .next t ↔ ∃ u, acceptWord w s = .next u ∧ runWords ws u = .next t := by
  simp only [runWords]
  cases acceptWord w s <;> simp

/-- A run of two lists is a run of the first and then of the second. -/
theorem runWords_append_next {ws vs : List Word} {s t : State} :
    runWords (ws ++ vs) s = .next t ↔ ∃ u, runWords ws s = .next u ∧ runWords vs u = .next t := by
  induction ws generalizing s with
  | nil => simp
  | cons w ws ih =>
    simp only [List.cons_append, runWords_cons_next, ih]
    constructor
    · rintro ⟨u, hu, v, hv, ht⟩; exact ⟨v, ⟨u, hu, hv⟩, ht⟩
    · rintro ⟨v, ⟨u, hu, hv⟩, ht⟩; exact ⟨u, hu, v, hv, ht⟩

/-! ### The step -/

/-- A response handshake moves at most the oldest word from RQ to the host. -/
theorem State.responseHandshake_eq (s : State) (rdy : Bool) :
    s.responseHandshake rdy = { s with
      rq := if rdy then s.rq.drop 1 else s.rq
      taken := if rdy then s.taken ++ s.rq.take 1 else s.taken } := by
  obtain ⟨p, sz, hc, acc, bits, rq, n, port, taken⟩ := s
  cases rdy <;> cases rq <;> simp [State.responseHandshake, State.rspValid, State.takeResponse]

theorem step_idle {s : State} (h : s.port = []) : step s = .next s := by
  simp only [step, h]

theorem step_reset {s : State} {e : HostEdge} {rest : List HostEdge} (h : s.port = e :: rest) (hr : e.rst = true) :
    step s = .next { State.resetWith s.params with port := rest } := by
  simp only [step, h, clockEdge, hr]; rfl

theorem step_accept {s : State} {e : HostEdge} {rest : List HostEdge} (h : s.port = e :: rest) (hr : e.rst = false)
    (hv : e.cmdValid = true) (hq : s.rq.length < s.params.rspDepth) :
    step s = acceptWord e.cmdData (State.responseHandshake { s with port := rest } e.rspReady) := by
  simp [step, h, clockEdge, hr, hv, State.cmdReady, hq]

theorem step_no_accept {s : State} {e : HostEdge} {rest : List HostEdge} (h : s.port = e :: rest) (hr : e.rst = false)
    (hv : e.cmdValid = false ∨ s.params.rspDepth ≤ s.rq.length) :
    step s = .next (State.responseHandshake { s with port := rest } e.rspReady) := by
  rcases hv with hv | hv <;> simp [step, h, clockEdge, hr, hv, State.cmdReady]

/-- Everything a step can do when it answers a next state: idle, reset, accept a word, or only the response handshake. -/
theorem step_cases {s t : State} (h : step s = .next t) :
    (s.port = [] ∧ t = s) ∨
    (∃ e rest, s.port = e :: rest ∧ e.rst = true ∧ t = { State.resetWith s.params with port := rest }) ∨
    (∃ e rest, s.port = e :: rest ∧ e.rst = false ∧ e.cmdValid = true ∧ s.rq.length < s.params.rspDepth ∧
      s.acceptedWord = some e.cmdData ∧
      acceptWord e.cmdData (State.responseHandshake { s with port := rest } e.rspReady) = .next t) ∨
    (∃ e rest, s.port = e :: rest ∧ e.rst = false ∧ (e.cmdValid = false ∨ s.params.rspDepth ≤ s.rq.length) ∧
      s.acceptedWord = none ∧ t = State.responseHandshake { s with port := rest } e.rspReady) := by
  cases hp : s.port with
  | nil => rw [step_idle hp] at h; exact .inl ⟨rfl, (Host.Outcome.next.inj h).symm⟩
  | cons e rest =>
    cases hr : e.rst with
    | true =>
      rw [step_reset hp hr] at h
      exact .inr (.inl ⟨e, rest, rfl, hr, (Host.Outcome.next.inj h).symm⟩)
    | false =>
      by_cases hv : e.cmdValid = true ∧ s.rq.length < s.params.rspDepth
      · rw [step_accept hp hr hv.1 hv.2] at h
        exact .inr (.inr (.inl ⟨e, rest, rfl, hr, hv.1, hv.2,
          by simp [State.acceptedWord, hp, hr, hv.1, State.cmdReady, hv.2], h⟩))
      · have hv' : e.cmdValid = false ∨ s.params.rspDepth ≤ s.rq.length := by
          by_cases hx : e.cmdValid = true
          · exact .inr (Nat.le_of_not_lt fun hq => hv ⟨hx, hq⟩)
          · exact .inl (by simpa using hx)
        rw [step_no_accept hp hr hv'] at h
        refine .inr (.inr (.inr ⟨e, rest, rfl, hr, hv', ?_, (Host.Outcome.next.inj h).symm⟩))
        rcases hv' with hv' | hv' <;> simp [State.acceptedWord, hp, hr, hv', State.cmdReady]

/-- A run of `k + 1` steps is a step and a run of `k`. -/
theorem stepN_succ_next {k : Nat} {s t : State} :
    stepN (k + 1) s = .next t ↔ ∃ u, step s = .next u ∧ stepN k u = .next t := by
  simp only [stepN]
  cases step s <;> simp

/-- What is accepted in `k + 1` steps is what the first accepts, then what the other `k` accept. -/
theorem acceptedIn_succ_next {k : Nat} {s u : State} (h : step s = .next u) :
    acceptedIn (k + 1) s = s.acceptedWord.toList ++ acceptedIn k u := by
  simp only [acceptedIn, h]

end Sys2Proof.Machine
end

