-- ==== Sys2Proof/Laws/PerInstr.lean ====
section
/-! SUPPORT. Family `Opcode`: a well-formed command's word carries the opcode of its row in the opcode map (30_encoding.md
R95) in its OPC field. -/

namespace Sys2Proof.Laws.Opcode

/-- OPC of each command (30_encoding.md R95). -/
def opcode : Instr → Nat
  | .nop => 0x0
  | .construct _ _ => 0x1
  | .char _ => 0x2
  | .insert => 0x3
  | .query => 0x4

/-- The encoded word's bits [31:28] are the command's opcode. -/
def Statement (i : Instr) : Prop := i.wellFormed = true → field (encode i) 31 28 = opcode i

theorem nop : Statement .nop := fun _ => by decide

theorem construct (size hashCount : Nat) : Statement (.construct size hashCount) := fun h => by
  simp only [Instr.wellFormed, sizeFits, hashCountFits, Bool.and_eq_true, decide_eq_true_eq] at h
  exact field_opcodeWord (by decide) (by omega)

theorem char (code : Nat) : Statement (.char code) := fun h => by
  simp only [Instr.wellFormed, codeFits, decide_eq_true_eq] at h
  exact field_opcodeWord (by decide) (by omega)

theorem insert : Statement .insert := fun _ => by decide

theorem query : Statement .query := fun _ => by decide

end Sys2Proof.Laws.Opcode
end

