-- ==== Sys2Proof/Tests/Slice0.lean ====
section
/-! SUPPORT. The model's own tests. Expected values are the spec's: the tables of 95_test_vectors.md (V-…, P…) and the
examples of 30_encoding.md, named at each test; and one witness theorem for each statement with hypotheses. -/

namespace Sys2Proof.Tests

open Sys2Proof Sys2Proof.Machine

/-! ### Small states -/

/-- Reset at the smallest parameter instance of 00_scope.md R7. -/
def small : State := State.resetWith Params.smallest

/-- `small` with lanes and slots put in place. -/
def withLanes (acc : List Lane) (bits : Memory) : State := { small with acc := acc, bits := bits }

/-- The filter after INSERTS "apple" (V-INS-1): bits 13, 14 and 30, lanes 0. -/
def apple : State := withLanes [0, 0, 0, 0, 0] [(13, 1), (14, 1), (30, 1)]

/-- `apple` with the item "apple" in progress again: lanes 30, 13, 14 (L1-2). -/
def appleItem : State := withLanes [30, 13, 14, 0, 0] [(13, 1), (14, 1), (30, 1)]

/-- The state of an outcome that is a next state. -/
def nextOf : Host.Outcome State Fault Refusal → State
  | .next t => t
  | _ => small

/-- A rising edge at which the host offers `w`. -/
def offer (w : Word) (rdy : Bool) : HostEdge := ⟨false, true, w, rdy⟩

/-- A rising edge at which the host takes a response. -/
def take : HostEdge := ⟨false, false, 0, true⟩

/-! ### WellFormed: an ill-formed term for each check -/

theorem test_size_too_wide : (Instr.construct 1048576 3).wellFormed = false := by decide
theorem test_hashCount_too_wide : (Instr.construct 100 256).wellFormed = false := by decide
theorem test_code_too_wide : (Instr.char 2097152).wellFormed = false := by decide
theorem test_largest_operands_fit :
    (Instr.construct 1048575 255).wellFormed = true ∧ (Instr.char 2097151).wellFormed = true := by decide

/-! ### Decode: words written out bit by bit from the formats of R94 (OPC, then HC and SZ, RES and CODE, or RES) -/

theorem test_decode_nop : decode 0b0000_0000000000000000000000000000#32 = .cmd .nop := by decide
theorem test_decode_construct :
    decode 0b0001_00000101_00000000001111101000#32 = .cmd (.construct 1000 5) := by decide
theorem test_decode_char : decode 0b0010_0000000_000000000000001100001#32 = .cmd (.char 97) := by decide
theorem test_decode_insert : decode 0b0011_0000000000000000000000000000#32 = .cmd .insert := by decide
theorem test_decode_query : decode 0b0100_0000000000000000000000000000#32 = .cmd .query := by decide

/-- V-DEC-2, V-DEC-3, V-DEC-6, V-DEC-7, V-DEC-9, V-DEC-10. -/
theorem test_decode_reserved_fields :
    decode 0x00000001#32 = .illegal .fieldNonzero ∧ decode 0x08000000#32 = .illegal .fieldNonzero ∧
    decode 0x20200000#32 = .illegal .fieldNonzero ∧ decode 0x2FE00061#32 = .illegal .fieldNonzero ∧
    decode 0x30000001#32 = .illegal .fieldNonzero ∧ decode 0x40000010#32 = .illegal .fieldNonzero := by decide

/-- V-DEC-11 to V-DEC-14. -/
theorem test_decode_reserved_opcodes :
    decode 0x50000000#32 = .illegal .opcReserved ∧ decode 0x5FFFFFFF#32 = .illegal .opcReserved ∧
    decode 0xF0000000#32 = .illegal .opcReserved ∧ decode 0xFFFFFFFF#32 = .illegal .opcReserved := by decide

theorem test_table_word : decodeTableWord 32 0x20000000 = some (.char 0) ∧
    decodeTableWord 32 0x50000000 = none ∧ decodeTableWord 33 0x100000000 = none := by decide

/-! ### The response word: the examples of R108 -/

theorem test_response_examples :
    responseWord 0x0 .ok .none false = 0x00000000#32 ∧ responseWord 0x1 .ok .none false = 0x10000000#32 ∧
    responseWord 0x2 .ok .none false = 0x20000000#32 ∧ responseWord 0x3 .ok .none false = 0x30000000#32 ∧
    responseWord 0x4 .ok .none false = 0x40000000#32 ∧ responseWord 0x4 .ok .none true = 0x40000001#32 ∧
    responseWord 0x1 .invalidConfiguration { sizeBad := true } false = 0x10000110#32 ∧
    responseWord 0x1 .invalidConfiguration { hcBad := true } false = 0x10000210#32 ∧
    responseWord 0x1 .invalidConfiguration { sizeBad := true, hcBad := true } false = 0x10000310#32 ∧
    responseWord 0xF .illegalCommand { opcReserved := true } false = 0xF0000420#32 ∧
    responseWord 0x2 .illegalCommand { fieldNonzero := true } false = 0x20000820#32 ∧
    responseWord 0x3 .illegalCommand { fieldNonzero := true } false = 0x30000820#32 := by decide

/-! ### One command at a time -/

/-- V-NOP-1. -/
theorem test_nop : (nextOf (exec .nop appleItem)).rq = [0x00000000#32] ∧
    (nextOf (exec .nop appleItem)).acc = appleItem.acc := by decide

/-- V-CON-2 (here with HC_MAX = 5): the new configuration, every slot and lane 0. -/
theorem test_construct : (nextOf (exec (.construct 10 5) appleItem)).sizeNat = 10 ∧
    (nextOf (exec (.construct 10 5) appleItem)).hcNat = 5 ∧
    (nextOf (exec (.construct 10 5) appleItem)).bits = [] ∧
    (nextOf (exec (.construct 10 5) appleItem)).acc = [0, 0, 0, 0, 0] ∧
    (nextOf (exec (.construct 10 5) appleItem)).rq = [0x10000000#32] := by decide

/-- V-CON-9 to V-CON-13: SIZE_MAX = 1000, HC_MAX = 5. -/
theorem test_construct_bounds :
    (nextOf (acceptWord 0x105003E9#32 small)).rq = [0x10000110#32] ∧
    (nextOf (acceptWord 0x106003E8#32 small)).rq = [0x10000210#32] ∧
    (nextOf (acceptWord 0x106003E9#32 small)).rq = [0x10000310#32] ∧
    (nextOf (acceptWord 0x105003E8#32 small)).rq = [0x10000000#32] ∧
    (nextOf (acceptWord 0x10100000#32 small)).rq = [0x10000110#32] := by decide

/-- V-CHR-2: CHAR 112 after CHAR 97. -/
theorem test_char : (nextOf (exec (.char 112) (withLanes [97, 97, 97, 0, 0] []))).acc = [9, 6, 3, 0, 0] := by decide

/-- V-CHR-3 and V-CHR-17: code 0 multiplies; the largest code is reduced. -/
theorem test_char_edges : (nextOf (exec (.char 0) (withLanes [9, 6, 3, 0, 0] []))).acc = [9, 12, 9, 0, 0] ∧
    (nextOf (exec (.char 0x1FFFFF) small)).acc = [51, 51, 51, 0, 0] := by decide

/-- V-CHR-20: the largest intermediate value, lane 255 of the nominal instance. -/
theorem test_char_largest : laneStep 255 1048575 1048574 2097151 = 1048321 := by decide

/-- V-INS-1 and V-INS-4: the slots of "apple", and again on top of themselves. -/
theorem test_insert : (nextOf (exec .insert (withLanes [30, 13, 14, 0, 0] []))).bits = [(13, 1), (14, 1), (30, 1)] ∧
    (nextOf (exec .insert (withLanes [30, 13, 14, 0, 0] []))).acc = [0, 0, 0, 0, 0] ∧
    (nextOf (exec .insert appleItem)).bits = [(13, 1), (14, 1), (30, 1)] := by decide

/-- V-INS-3: three lanes on one slot. -/
theorem test_insert_one_slot : (nextOf (exec .insert (withLanes [97, 97, 97, 0, 0] []))).bits = [(97, 1)] := by decide

/-- V-QRY-2 and V-QRY-3: "apple" is found, "banana" is not. -/
theorem test_query : (nextOf (exec .query appleItem)).rq = [0x40000001#32] ∧
    (nextOf (exec .query (withLanes [9, 73, 41, 0, 0] apple.bits))).rq = [0x40000000#32] ∧
    (nextOf (exec .query appleItem)).bits = apple.bits := by decide

/-- V-DEC-12 and V-INS-8: an illegal word writes nothing but its response and the position. -/
theorem test_illegal_word : (nextOf (acceptWord 0x5FFFFFFF#32 appleItem)).rq = [0x50000420#32] ∧
    (nextOf (acceptWord 0x30000001#32 appleItem)).rq = [0x30000820#32] ∧
    (nextOf (acceptWord 0x30000001#32 appleItem)).acc = appleItem.acc ∧
    (nextOf (acceptWord 0x30000001#32 appleItem)).n = 1 := by decide

/-- The reference hash: "apple" and "banana" at SIZE 100, "apple" at SIZE 1000 (V-CHR-9, V-CHR-10, V-CHR-11). -/
theorem test_hash_values : hashValues [97, 112, 112, 108, 101] 3 100 = [30, 13, 14] ∧
    hashValues [97, 112, 112, 108, 101] 3 1000 = [530, 213, 314] ∧
    hashValues [98, 97, 110, 97, 110, 97] 3 100 = [9, 73, 41] := by decide

/-! ### The ports -/

/-- V-RST-1 and V-RST-2: one edge with rst = 1. -/
theorem test_reset_edge :
    (nextOf (step { appleItem with rq := [0x20000000#32], n := 1, port := [⟨true, true, 0, true⟩] })) = small := by
  decide

/-- With RSP_DEPTH = 1 a word offered at the edge that takes a response is not accepted (R243). -/
theorem test_backpressure :
    (nextOf (step { small with rq := [0x20000000#32], n := 1, port := [offer 0x30000000#32 true] })).n = 1 ∧
    (nextOf (step { small with rq := [0x20000000#32], n := 1, port := [offer 0x30000000#32 true] })).taken =
      [0x20000000#32] := by decide

/-- R247: the run of that INSERT has not ended then, since the word was offered and never accepted. -/
theorem test_unaccepted_word_is_no_ended_run (s t : State)
    (h : s = { small with rq := [0x20000000#32], n := 1, port := [offer 0x30000000#32 true] }) :
    ¬ s.Delivers [0x30000000#32] 1 t := by
  intro d
  have a := d.accepted
  subst h
  revert a
  decide

/-- The word put before the reset machine (nominal parameters) is run by the first step (V-CON-7, V-DEC-4). -/
theorem test_first_step :
    (nextOf (step (State.reset.withFetchWord 32 0x10000000))).rq = [0x10000310#32] ∧
    (nextOf (step (State.reset.withFetchWord 32 0x20000000))).rq = [0x20000000#32] := by decide

/-! ### The assembler -/

/-- Words of program P1 (its first item) and of an illegal line, from text (R110, R111). -/
theorem test_assemble :
    assemble .codePoints
      ['N', 'O', 'P', ';', 'x', '\n', 'I', 'N', 'S', 'E', 'R', 'T', 'S', ' ', '"', 'a', '"', '\n',
       'C', 'O', 'N', 'S', 'T', 'R', 'U', 'C', 'T', ' ', '1', '0', ',', ' ', '5', '\n',
       'C', 'H', 'A', 'R', ' ', '\'', 'x', '\'', '\n', '.', 'w', 'o', 'r', 'd', ' ', '0', 'x', 'F', '0'] =
      some [0x00000000#32, 0x20000061#32, 0x30000000#32, 0x1050000A#32, 0x20000078#32, 0x000000F0#32] := by
  decide

theorem test_assemble_defaults : assembleLine .codePoints .constructDefault = some [0x10300064#32] := by decide

theorem test_assemble_error :
    assembleLine .codePoints (.construct 1048576 3) = none ∧ assembleLine .codePoints (.construct 0 0) ≠ none := by
  decide

/-! ### Witnesses: states and operands that meet the hypotheses of each statement -/

/-- A filter in mid-item with slots set, one response outstanding and edges to come meets the invariant. -/
def running : State :=
  { appleItem with
    rq := [0x20000000#32], n := 6,
    taken := [0x20000000#32, 0x20000000#32, 0x30000000#32, 0x20000820#32, 0x50000420#32],
    port := [offer 0x30000000#32 true, offer 0x30000000#32 false] }

theorem appleItem_engine : appleItem.EngineInv := by
  refine ⟨by decide, by decide, by decide, by decide, fun j hj => ?_, by decide, fun i hi => ?_⟩
  · have h3 : 3 < j := hj
    rw [State.lane_pos _ (by omega)]
    obtain ⟨k, rfl⟩ : ∃ k, j = k + 4 := ⟨j - 4, by omega⟩
    rcases k with _ | _ | k <;> rfl
  · have h100 : 100 ≤ i := hi
    show Memory.read [(13, 1), (14, 1), (30, 1)] i = 0
    simp only [Memory.read_cons, Memory.read_nil]
    rw [if_neg (by omega), if_neg (by omega), if_neg (by omega)]

theorem apple_engine : apple.EngineInv := by
  refine ⟨by decide, by decide, by decide, by decide, fun j hj => ?_, by decide, appleItem_engine.slot_above⟩
  exact State.lane_of_replicate (k := 5) rfl j

theorem apple_boundary : apple.AtBoundary := fun _ ha => (List.mem_replicate (n := 5).mp ha).2

theorem small_engine : small.EngineInv := by
  refine ⟨by decide, by decide, by decide, by decide, fun j _ => ?_, by decide, fun _ _ => rfl⟩
  exact State.lane_of_replicate (k := 5) rfl j

theorem running_inv : running.Inv :=
  ⟨⟨appleItem_engine.1, appleItem_engine.2, appleItem_engine.3, appleItem_engine.4, appleItem_engine.5,
    appleItem_engine.6, appleItem_engine.7⟩, by decide, by decide, by
      show ∀ w ∈ [0x20000000#32, 0x20000000#32, 0x30000000#32, 0x20000820#32, 0x50000420#32, 0x20000000#32], LegalResponse w
      simp only [List.forall_mem_cons, List.not_mem_nil, false_imp_iff, implies_true, and_true]
      exact ⟨by decide, by decide, by decide, by decide, by decide, by decide⟩⟩

/-- For `DecodeInvertsEncode`, `EncodeInvertsDecode`: the largest operands, whose words decode. -/
theorem witness_round_trip :
    (Instr.construct 1048575 255).wellFormed = true ∧ decode 0x1FFFFFFF#32 = .cmd (.construct 1048575 255) ∧
    (Instr.char 2097151).wellFormed = true ∧ decode 0x201FFFFF#32 = .cmd (.char 2097151) := by decide

/-- For `IllegalWordsRaiseIllegalCommand`: each clause at the boundary of its range. -/
theorem witness_illegal_words :
    5 ≤ field 0x50000000#32 31 28 ∧ 5 ≤ field 0xFFFFFFFF#32 31 28 ∧
    (field 0x00000001#32 31 28 ∈ [0, 3, 4] ∧ field 0x00000001#32 27 0 ≠ 0) ∧
    (field 0x48000000#32 31 28 ∈ [0, 3, 4] ∧ field 0x48000000#32 27 0 ≠ 0) ∧
    (field 0x20200000#32 31 28 = 2 ∧ field 0x20200000#32 27 21 ≠ 0) ∧
    (decode 0x201FFFFF#32 = .cmd (.char 0x1FFFFF) ∧
      (nextOf (acceptWord 0x201FFFFF#32 small)).rq = small.rq ++ [0x20000000#32]) := by decide

/-- For `NopOnlyResponds`, `CharAdvancesActiveLanes`, `InsertSetsLaneSlots` and `QueryTestsLaneSlots`: words of each opcode
with a reserved bit set. -/
theorem witness_reserved_bits :
    (field 0x08000000#32 31 28 = 0 ∧ field 0x08000000#32 27 0 ≠ 0) ∧
    (field 0x20200000#32 31 28 = 2 ∧ field 0x20200000#32 27 21 ≠ 0) ∧
    (field 0x30000001#32 31 28 = 3 ∧ field 0x30000001#32 27 0 ≠ 0) ∧
    (field 0x40000010#32 31 28 = 4 ∧ field 0x40000010#32 27 0 ≠ 0) := by decide

/-- For `ConstructStartsEmptyFilter`: the smallest and the largest legal operands. -/
theorem witness_construct_legal :
    (1 ≤ 1 ∧ 1 ≤ small.params.sizeMax ∧ 1 ≤ small.params.hcMax) ∧
    (1 ≤ 1000 ∧ 1000 ≤ small.params.sizeMax ∧ 1 ≤ 5 ∧ 5 ≤ small.params.hcMax) := by decide

/-- For `ConstructRejectsIllegalOperands`: the first illegal value on each side of each range. -/
theorem witness_construct_illegal :
    ((0 = 0 ∨ small.params.sizeMax < 0) ∨ (3 = 0 ∨ small.params.hcMax < 3)) ∧
    ((1001 = 0 ∨ small.params.sizeMax < 1001) ∨ (3 = 0 ∨ small.params.hcMax < 3)) ∧
    ((100 = 0 ∨ small.params.sizeMax < 100) ∨ (0 = 0 ∨ small.params.hcMax < 0)) ∧
    ((100 = 0 ∨ small.params.sizeMax < 100) ∨ (6 = 0 ∨ small.params.hcMax < 6)) := by decide

/-- For `CharAdvancesActiveLanes`: an engine in mid-item with active and inactive lanes, and an illegal CHAR that is accepted. -/
theorem witness_char : appleItem.EngineInv ∧ (1 ≤ 1 ∧ 1 ≤ appleItem.hcNat) ∧ (3 ≤ appleItem.hcNat) ∧
    appleItem.hcNat < 4 ∧
    (field 0x2FE00061#32 31 28 = 2 ∧ field 0x2FE00061#32 27 21 ≠ 0 ∧ ∃ t, acceptWord 0x2FE00061#32 appleItem = .next t) :=
  ⟨appleItem_engine, by decide, by decide, by decide, by decide, by decide, _, rfl⟩

/-- For `InsertSetsLaneSlots`: every index in the address space, the last one (999) among them, and a slot that no lane
points at. -/
theorem witness_insert :
    (∀ j, 1 ≤ j → j ≤ (withLanes [999, 0, 14, 0, 0] []).hcNat →
      ((withLanes [999, 0, 14, 0, 0] []).lane j).toNat < (withLanes [999, 0, 14, 0, 0] []).params.sizeMax) ∧
    (∀ j, 1 ≤ j → j ≤ (withLanes [999, 0, 14, 0, 0] []).hcNat →
      ((withLanes [999, 0, 14, 0, 0] []).lane j).toNat ≠ 13) := by decide

/-- For `InsertSetsLaneSlots`'s last clause: a running engine on which INSERT completes, with a slot that is 1 already. -/
theorem witness_insert_running : appleItem.EngineInv ∧ (∃ t, exec .insert appleItem = .next t) ∧
    appleItem.memRead 13 = 1 := ⟨appleItem_engine, ⟨_, rfl⟩, by decide⟩

/-- For `QueryTestsLaneSlots`: a query whose slots are all 1, and one with a slot that is 0. -/
theorem witness_query :
    (∀ j, 1 ≤ j → j ≤ appleItem.hcNat → (appleItem.lane j).toNat < appleItem.params.sizeMax) ∧
    (∀ j, 1 ≤ j → j ≤ appleItem.hcNat → appleItem.memRead (appleItem.lane j).toNat = 1) ∧
    (1 ≤ 1 ∧ 1 ≤ apple.hcNat ∧ apple.memRead (apple.lane 1).toNat ≠ 1) := by decide

/-- For `MissingSlotStopsInsertAndQuery`: an active lane at the first index past the array. -/
theorem witness_missing_slot : 3 ≤ (withLanes [0, 0, 1000, 0, 0] []).hcNat ∧
    (withLanes [0, 0, 1000, 0, 0] []).params.sizeMax ≤ ((withLanes [0, 0, 1000, 0, 0] []).lane 3).toNat := by decide

/-- For `OnlyNamedCommandsWrite`: accepted words of each kind it names that start no lifetime and do write. -/
theorem witness_only_named :
    (acceptWord 0x30000000#32 appleItem = .next (nextOf (acceptWord 0x30000000#32 appleItem)) ∧
      startsLifetime appleItem.params 0x30000000#32 = false ∧
      (nextOf (acceptWord 0x30000000#32 appleItem)).acc ≠ appleItem.acc) ∧
    (acceptWord 0x30000000#32 small = .next (nextOf (acceptWord 0x30000000#32 small)) ∧
      (nextOf (acceptWord 0x30000000#32 small)).bits ≠ small.bits) :=
  ⟨⟨rfl, by decide, by decide⟩, rfl, by decide⟩

/-- For `EveryCommandAppendsOneResponse` and `ErrorsWriteNothing`: an accepted word that answers an error. -/
theorem witness_error :
    (∃ t, acceptWord 0x20200061#32 appleItem = .next t ∧ t.rq = appleItem.rq ++ [0x20000820#32]) ∧
    field 0x20000820#32 7 4 ≠ 0 ∧
    (∃ t, acceptWord 0x10000000#32 appleItem = .next t ∧ t.rq = appleItem.rq ++ [0x10000310#32]) ∧
    field 0x10000310#32 7 4 ≠ 0 := ⟨⟨_, rfl, by decide⟩, by decide, ⟨_, rfl, by decide⟩, by decide⟩

/-- For `ResponseDependsOnEngineStateOnly`: two states that agree in the engine and differ elsewhere, and a word. -/
theorem witness_engine_only :
    running.params = appleItem.params ∧ running.size = appleItem.size ∧ running.hashCount = appleItem.hashCount ∧
    running.acc = appleItem.acc ∧ running.bits = appleItem.bits ∧ running.rq ≠ appleItem.rq ∧
    ∃ t, acceptWord 0x40000000#32 appleItem = .next t :=
  ⟨rfl, rfl, rfl, rfl, rfl, by decide, _, rfl⟩

/-- For `StepExecutesDecodedCommand` and `StepAnswersIllegalWord`: an edge that offers a word to an engine with room. -/
theorem witness_step_accepts :
    ({ appleItem with port := [offer 0x40000000#32 true, take] } : State).rq.length < appleItem.params.rspDepth ∧
    (offer 0x40000000#32 true).rst = false ∧ (offer 0x40000000#32 true).cmdValid = true ∧
    decode (offer 0x40000000#32 true).cmdData = .cmd .query ∧
    decode (offer 0x40000010#32 true).cmdData = .illegal .fieldNonzero ∧
    decode (offer 0x50000000#32 true).cmdData = .illegal .opcReserved := by decide

/-- For `StepWithoutAcceptance`: a full queue, and an edge without an offer. -/
theorem witness_step_no_accept :
    running.port = [offer 0x30000000#32 true, offer 0x30000000#32 false] ∧
    running.params.rspDepth ≤ running.rq.length ∧ take.rst = false ∧ take.cmdValid = false := by decide

/-- For `ResponseHandshakeTakesOldest`: a response taken with no word accepted, one taken at an edge that accepts a word, and
one offered but not taken. -/
theorem witness_handshake :
    (running.rq = [0x20000000#32] ∧ (∃ t, step running = .next t) ∧
      (offer 0x30000000#32 true).rspReady = true ∧ running.acceptedWord = none) ∧
    (∃ s : State, s.rq = [0x20000000#32] ∧ s.port = [offer 0x00000000#32 true] ∧
      s.acceptedWord = some 0x00000000#32 ∧ ∃ t, step s = .next t) ∧
    (({ running with port := [offer 0x30000000#32 false] } : State).rspData false = some 0x20000000#32 ∧
      ∃ t, step { running with port := [offer 0x30000000#32 false] } = .next t) :=
  ⟨⟨rfl, ⟨_, rfl⟩, rfl, rfl⟩,
    ⟨{ running with params := { Params.smallest with rspDepth := 2, rspDepth_ge := by decide },
                    port := [offer 0x00000000#32 true] }, rfl, rfl, rfl, _, rfl⟩,
    rfl, _, rfl⟩

/-- For `ResetEdgeGivesResetState`: an edge with rst = 1 while the host drives every other input too. -/
theorem witness_reset_edge : ∃ e rest, ({ running with port := [⟨true, true, 0x30000000#32, true⟩, take] } : State).port =
    e :: rest ∧ e.rst = true := ⟨_, _, rfl, rfl⟩

/-- For `OfferedWordRunsNext`: a queue with room, and a word that decodes. -/
theorem witness_offered : decode 0x40000000#32 = .cmd .query ∧ appleItem.rq.length < appleItem.params.rspDepth := by
  decide

/-- For `StepKeepsInvariant`, `RunningEngineNeverStops` and `StepKeepsParameters`. -/
theorem witness_invariant : running.Inv ∧ ∃ t, step running = .next t := ⟨running_inv, _, rfl⟩

/-- For `ConfigurationConstantInLifetime`, `SlotsNeverClearedInLifetime` and `StepsRefineSequentialExecution`: two steps, one
of which accepts a word, in one lifetime, and a slot that is 1. -/
theorem witness_lifetime : running.NoReset ∧ (acceptedIn 2 running = [0x30000000#32]) ∧
    (∀ w ∈ acceptedIn 2 running, startsLifetime running.params w = false) ∧
    running.memRead 13 = 1 ∧ ∃ t, stepN 2 running = .next t := by
  have h : acceptedIn 2 running = [0x30000000#32] := by decide
  refine ⟨by decide, h, ?_, by decide, _, rfl⟩
  rw [h]; simp only [List.forall_mem_singleton]; decide

/-- For `UndrainedResponsesStopAcceptance`: a full queue and a host that only offers. -/
theorem witness_deadlock :
    ({ running with port := [offer 0 false, offer 0 false] } : State).NoReset ∧
    (∀ e ∈ ({ running with port := [offer 0 false, offer 0 false] } : State).port, e.rspReady = false) ∧
    running.rq.length = running.params.rspDepth ∧
    ∃ t, stepN 2 { running with port := [offer 0 false, offer 0 false] } = .next t :=
  ⟨by decide, by decide, by decide, _, rfl⟩

/-- For `HeldOfferIsAccepted`: the word offered to a full queue is held while the response is taken. -/
theorem witness_held : running.Inv ∧ running.acceptedWord = none ∧ running.HostHoldsOffer := by
  refine ⟨running_inv, by decide, fun e f rest h _ _ _ => ?_⟩
  have hp : [offer 0x30000000#32 true, offer 0x30000000#32 false] = e :: f :: rest := h
  cases hp; exact ⟨rfl, rfl⟩

/-- For `DrainedRunEndsWithEveryResponse`: a two-word run before an engine with no response outstanding. -/
theorem witness_drained : ∃ s : State, s.Inv ∧ s.rq = [] ∧ s.port = drainPort [0x20000061#32, 0x30000000#32] :=
  ⟨{ small with port := drainPort [0x20000061#32, 0x30000000#32] },
    ⟨⟨small_engine.1, small_engine.2, small_engine.3, small_engine.4, small_engine.5, small_engine.6, small_engine.7⟩,
      by decide, by decide, by simp [small]⟩, rfl, rfl⟩

/-- For `EndedRunObservesEveryResponse`: a two-word run that has ended, and a reset edge. -/
theorem witness_ended_run :
    (∃ t, ({ small with port := drainPort [0x20000061#32, 0x30000000#32] } : State).RunEnded
      [0x20000061#32, 0x30000000#32] 4 t) ∧
    ∃ e rest, ({ running with port := [⟨true, true, 0x30000000#32, true⟩, take] } : State).port = e :: rest ∧ e.rst = true :=
  ⟨⟨_, rfl, rfl, by decide, by decide, rfl⟩, _, _, rfl, rfl⟩

/-- For `LanesHashCurrentItem`: the item "apple" in progress, and a run of a NOP and a CHAR. -/
theorem witness_lanes_hash : appleItem.EngineInv ∧ appleItem.LanesHash [97, 112, 112, 108, 101] ∧
    ∃ t, runWords [0x00000000#32, 0x20000061#32] appleItem = .next t := by
  refine ⟨appleItem_engine, ?_, _, rfl⟩
  unfold State.LanesHash; decide

/-- For `ItemRunGivesHashValues`, `InsertIsIdempotent`, `InsertOrderIsIrrelevant` and `NopInsideItemChangesNoHash`. -/
theorem witness_item_run : apple.EngineInv ∧ apple.AtBoundary ∧ (∀ c ∈ [97, 2097151], c < 2 ^ 21) ∧
    [[97], [98, 97]].Perm [[98, 97], [97]] :=
  ⟨apple_engine, apple_boundary, by simp, List.Perm.swap _ _ _⟩

/-- For `LaneUpdateFitsDatapath` and `HashCornerCases`: an active lane and the largest code, and a filter of SIZE 1. -/
theorem witness_datapath : appleItem.EngineInv ∧ 3 ≤ appleItem.hcNat ∧ 2097151 < 2 ^ 21 ∧
    ∃ s : State, s.EngineInv ∧ s.sizeNat = 1 := by
  refine ⟨appleItem_engine, by decide, by decide, { small with size := ⟨1, by decide⟩ }, ?_, rfl⟩
  exact ⟨by decide, by decide, by decide, by decide, small_engine.lane_inactive, by decide, fun _ _ => rfl⟩

/-- For `SeedOneHashIsSum`. -/
theorem witness_seed_one : 1 ≤ 1 ∧ [97, 98].Perm [98, 97] := ⟨by decide, List.Perm.swap _ _ _⟩

/-- For `NoFalseNegatives`: "a" inserted into the apple filter, then a rejected CONSTRUCT and a query of the empty item. -/
theorem witness_no_false_negatives : apple.EngineInv ∧ apple.AtBoundary ∧ (∀ c ∈ [97], c < 2 ^ 21) ∧
    (∀ w ∈ [0x10000000#32, 0x40000000#32], startsLifetime apple.params w = false) ∧
    ∃ t, runWords (insertWords [97] ++ [0x10000000#32, 0x40000000#32]) apple = .next t ∧ t.AtBoundary := by
  refine ⟨apple_engine, apple_boundary, by simp, ?_, _, rfl, fun a ha => (List.mem_replicate (n := 5).mp ha).2⟩
  simp only [List.forall_mem_cons, List.not_mem_nil, false_imp_iff, implies_true, and_true]
  decide

/-- For `EmptyFilterAnswersFalse`: the fresh filter, a CONSTRUCT and a CHAR. -/
theorem witness_empty_filter : small.EngineInv ∧ (∀ i, small.memRead i = 0) ∧ (∀ c ∈ [97], c < 2 ^ 21) ∧
    (∀ w ∈ [0x1050000A#32, 0x20000061#32], decode w ≠ .cmd .insert) ∧
    (∃ t, runWords [0x1050000A#32, 0x20000061#32] small = .next t) ∧
    startsLifetime apple.params 0x1050000A#32 = true ∧ ∃ t, acceptWord 0x1050000A#32 apple = .next t := by
  refine ⟨small_engine, fun _ => rfl, by simp, ?_, ⟨_, rfl⟩, by decide, _, rfl⟩
  simp only [List.forall_mem_cons, List.not_mem_nil, false_imp_iff, implies_true, and_true]
  decide

/-- For `AssemblerChecksFieldRanges` and `PseudoInstructionExpansions`: the last value inside each field and the first
outside, and a string with no codes. -/
theorem witness_assembler :
    (1048575 < 2 ^ 20 ∧ 255 < 2 ^ 8) ∧ 2 ^ 20 ≤ 1048576 ∧ 2 ^ 8 ≤ 256 ∧ 2097151 < 2 ^ 21 ∧ 2 ^ 21 ≤ 2097152 ∧
    4294967295 < 2 ^ 32 ∧ 2 ^ 32 ≤ 4294967296 ∧ CharEncoding.codePoints.codes [] = [] ∧
    97 ∈ CharEncoding.codePoints.codes ['a'] := by decide

end Sys2Proof.Tests
end

namespace Sys2Proof.Machine

/-! ### The parameters (00_scope.md R7) are an argument of every step, and no step writes them -/

@[simp] theorem State.responseHandshake_params (s : State) (rdy : Bool) :
    (s.responseHandshake rdy).params = s.params := by
  rw [State.responseHandshake_eq]

/-- Whatever an accepted word does, CONSTRUCT and the error responses included: each case of `acceptWord_cases` is a chain
of named operations, and none of them writes the parameters. -/
theorem acceptWord_params {w : Word} {s t : State} (h : acceptWord w s = .next t) : t.params = s.params := by
  obtain ⟨_, _, rfl⟩ | ⟨_, rfl⟩ | ⟨_, _, _, _, _, rfl⟩ | ⟨_, _, _, _, rfl⟩ | ⟨_, _, rfl⟩ | ⟨_, rfl⟩ | ⟨_, rfl⟩ :=
    acceptWord_cases h <;>
  simp only [State.raise_params, State.respond_params, State.startFilter_params, State.feedCode_params,
    State.setSlots_params, State.clearLanes_params, State.countCommand_params]

/-- Settles O26, by the four things a step can do: a reset edge starts over with the same parameters, and of the other
edges only one that accepts a word does more than the response handshake. -/
theorem stepKeepsParameters : Obligations.StepKeepsParameters := by
  intro s t h
  obtain ⟨_, rfl⟩ | ⟨_, _, _, _, rfl⟩ | ⟨_, _, _, _, _, _, _, haccept⟩ | ⟨_, _, _, _, _, _, rfl⟩ := step_cases h
  · rfl
  · exact State.resetWith_params s.params
  · exact (acceptWord_params haccept).trans (State.responseHandshake_params _ _)
  · exact State.responseHandshake_params _ _

end Sys2Proof.Machine

namespace Sys2Proof.Machine

/-! ### The invariant of the engine (10_state.md R33 to R40): each named operation keeps it -/

/-- Another bit array in the place of `s`'s keeps the invariant when it is canonical and 0 from SIZE up. The responses, the
counters and the ports are no part of the engine's invariant. -/
theorem State.EngineInv.of_bits {s t : State} (h : s.EngineInv) (hp : t.params = s.params) (hs : t.size = s.size)
    (hh : t.hashCount = s.hashCount) (ha : t.acc = s.acc) (hwf : t.bits.wf)
    (habove : ∀ i, s.sizeNat ≤ i → t.memRead i = 0) : t.EngineInv := by
  have hsize := State.sizeNat_congr hs
  have hhc := State.hcNat_congr hh
  have hlane := State.lane_congr ha
  constructor
  case size_le => rw [hsize, hp]; exact h.size_le
  case hc_le => rw [hhc, hp]; exact h.hc_le
  case acc_length => rw [ha, hp]; exact h.acc_length
  case lane_lt => intro j; rw [hhc, hsize, hlane]; exact h.lane_lt j
  case lane_inactive => intro j; rw [hhc, hlane]; exact h.lane_inactive j
  case bits_wf => exact hwf
  case slot_above => intro i; rw [hsize]; exact habove i

/-- The invariant reads the parameters and the rows SIZE, HASHCOUNT, ACC and BITS of R29, and nothing else. -/
theorem State.EngineInv.congr {s t : State} (h : s.EngineInv) (hp : t.params = s.params) (hs : t.size = s.size)
    (hh : t.hashCount = s.hashCount) (ha : t.acc = s.acc) (hb : t.bits = s.bits) : t.EngineInv :=
  h.of_bits hp hs hh ha (hb ▸ h.bits_wf) fun i hi => (State.memRead_congr hb i).trans (h.slot_above i hi)

/-- Cleared lanes meet the lanes' part of the invariant, whatever SIZE and HASHCOUNT are. -/
theorem State.EngineInv.of_cleared {s : State} (hsize : s.sizeNat ≤ s.params.sizeMax)
    (hhc : s.hcNat ≤ s.params.hcMax) (hacc : s.acc = List.replicate s.params.hcMax 0) (hwf : s.bits.wf)
    (habove : ∀ i, s.sizeNat ≤ i → s.memRead i = 0) : s.EngineInv where
  size_le := hsize
  hc_le := hhc
  acc_length := by rw [hacc, List.length_replicate]
  lane_lt j _ _ := by rw [State.lane_of_replicate hacc j]; exact s.sizeNat_pos
  lane_inactive j _ := State.lane_of_replicate hacc j
  bits_wf := hwf
  slot_above := habove

theorem State.EngineInv.respond {s : State} (h : s.EngineInv) (opc : BitVec 4) (st : Status) (info : Info)
    (r : Bool) : (s.respond opc st info r).EngineInv := h.congr rfl rfl rfl rfl rfl

theorem State.EngineInv.raise {s : State} (h : s.EngineInv) (opc : BitVec 4) (e : Err) (info : Info) :
    (s.raise opc e info).EngineInv := h.respond opc e.status info false

theorem State.EngineInv.countCommand {s : State} (h : s.EngineInv) : s.countCommand.EngineInv :=
  h.congr rfl rfl rfl rfl rfl

theorem State.EngineInv.clearLanes {s : State} (h : s.EngineInv) : s.clearLanes.EngineInv :=
  .of_cleared h.size_le h.hc_le rfl h.bits_wf h.slot_above

/-- A new filter meets the invariant from any state: CONSTRUCT's checks bound both registers (40_construct.md R123). -/
theorem State.startFilter_engineInv (s : State) {size hc : Nat} (h1 : sizeBad s.params size = false)
    (h2 : hcBad s.params hc = false) :
    (s.startFilter (.ofChecked s.params size h1) (.ofChecked s.params hc h2)).EngineInv :=
  .of_cleared ((SizeReg.ofChecked_toNat h1).trans_le (sizeBad_false_iff.mp h1).2)
    ((HashCountReg.ofChecked_toNat h2).trans_le (hcBad_false_iff.mp h2).2) rfl Memory.nil_wf fun i _ => Memory.read_nil i

/-- CHAR leaves a remainder modulo SIZE in each active lane (41_hash_pipeline.md R146) and leaves the others. -/
theorem State.EngineInv.feedCode {s : State} (h : s.EngineInv) (code : Nat) : (s.feedCode code).EngineInv where
  size_le := h.size_le
  hc_le := h.hc_le
  acc_length := (advanceLanes_length ..).trans h.acc_length
  lane_lt j h1 hj := by
    have hbuilt : s.hcNat ≤ s.acc.length := h.hc_le.trans_eq h.acc_length.symm
    rw [State.lane_feedCode_active hbuilt code h1 hj]
    exact laneStep_lt s.sizeNat_pos ..
  lane_inactive j hj := (State.lane_feedCode_inactive s code hj).trans (h.lane_inactive j hj)
  bits_wf := h.bits_wf
  slot_above := h.slot_above

/-- Slots below SIZE may be set: those at and above SIZE keep their 0 (10_state.md R40). -/
theorem State.EngineInv.setSlots {s : State} (h : s.EngineInv) {is : List Nat} (his : ∀ i ∈ is, i < s.sizeNat) :
    (s.setSlots is).EngineInv := by
  refine h.of_bits (by simp) (by simp) (by simp) (by simp) (State.setSlots_wf h.bits_wf is) fun i hi => ?_
  rw [State.memRead_setSlots, if_neg fun hmem => (his i hmem).not_ge hi]
  exact h.slot_above i hi

/-- The slots INSERT sets and QUERY tests are below SIZE. -/
theorem State.EngineInv.indices_lt {s : State} (h : s.EngineInv) : ∀ i ∈ s.indices, i < s.sizeNat := by
  intro i hi
  obtain ⟨j, h1, hj, rfl⟩ := State.mem_indices.mp hi
  exact h.lane_lt j h1 hj

/-- Every accepted word keeps the engine's invariant: each outcome of `acceptWord_cases` is a chain of operations that
keep it. -/
theorem State.EngineInv.acceptWord {w : Word} {s t : State} (hs : s.EngineInv) (h : acceptWord w s = .next t) :
    t.EngineInv := by
  have hcount := hs.countCommand
  obtain ⟨_, _, rfl⟩ | ⟨_, rfl⟩ | ⟨_, _, h1, h2, _, rfl⟩ | ⟨_, _, _, _, rfl⟩ | ⟨code, _, rfl⟩ | ⟨_, rfl⟩ | ⟨_, rfl⟩ :=
    acceptWord_cases h
  · exact hcount.raise ..
  · exact hcount.respond ..
  · exact (s.countCommand.startFilter_engineInv h1 h2).respond ..
  · exact hcount.raise ..
  · exact (hcount.feedCode code).respond ..
  · exact (hcount.setSlots hs.indices_lt).clearLanes.respond ..
  · exact hcount.clearLanes.respond ..

/-! ### The responses of accepted words are legal (30_encoding.md R104 to R107) -/

/-- R104: every field of a response word. -/
theorem responseWord_fields (opc : BitVec 4) (st : Status) (info : Info) (r : Bool) :
    field (responseWord opc st info r) 31 28 = opc.toNat ∧
    field (responseWord opc st info r) 27 12 = 0 ∧
    field (responseWord opc st info r) 11 8 = info.code ∧
    field (responseWord opc st info r) 7 4 = st.code ∧
    field (responseWord opc st info r) 3 1 = 0 ∧
    field (responseWord opc st info r) 0 0 = r.toNat := by
  have hopc := opc.isLt
  have hinfo := info.code_lt
  have hst := st.code_le
  have hr := r.toNat_le
  simp only [field, responseWord_toNat]
  omega

/-- OPC as the response copies it is the command word's field. -/
@[simp] theorem opcOf_toNat (w : Word) : (opcOf w).toNat = field w 31 28 := by
  rw [opcOf, BitVec.toNat_ofNat, Nat.mod_eq_of_lt (field_lt w 31 28)]

theorem legalResponse_ok {opc : BitVec 4} {r : Bool} (hopc : opc.toNat ≤ 4) (hr : r = true → opc = 4) :
    LegalResponse (responseWord opc .ok .none r) := by
  obtain ⟨fopc, fzero, finfo, fst, fzero', fr⟩ := responseWord_fields opc .ok .none r
  refine ⟨fzero, fzero', .inl ⟨fst, finfo, fopc.trans_le hopc⟩, fun hresult => ?_⟩
  cases r with
  | false => exact absurd (fr.symm.trans hresult) (by decide)
  | true => exact ⟨by rw [fopc, hr rfl]; rfl, fst⟩

/-- An error response is legal when its STATUS, INFO and OPC go together: it has RESULT 0. -/
theorem legalResponse_error {opc : BitVec 4} {st : Status} {info : Info}
    (h : (st.code = 1 ∧ 1 ≤ info.code ∧ info.code ≤ 3 ∧ opc.toNat = 1) ∨
      (st.code = 2 ∧ info.code = 4 ∧ 5 ≤ opc.toNat) ∨
      (st.code = 2 ∧ info.code = 8 ∧ opc.toNat ∈ [0, 2, 3, 4])) :
    LegalResponse (responseWord opc st info false) := by
  obtain ⟨fopc, fzero, finfo, fst, fzero', fr⟩ := responseWord_fields opc st info false
  refine ⟨fzero, fzero', .inr ?_, fun hresult => absurd (fr.symm.trans hresult) (by decide)⟩
  rw [fst, finfo, fopc]
  exact h

/-- The answer to a rejected CONSTRUCT: at least one of the two range checks failed. -/
theorem legalResponse_invalidConfiguration {sb hb : Bool} (h : ¬ (sb = false ∧ hb = false)) :
    LegalResponse (responseWord 1 .invalidConfiguration { sizeBad := sb, hcBad := hb } false) := by
  refine legalResponse_error (.inl ?_)
  revert sb hb
  decide

/-- The answer to a word the decoder rejects (60_exceptions.md R206). -/
theorem legalResponse_illegalCommand {w : Word} {why : Illegal} (h : decode w = .illegal why) :
    LegalResponse (responseWord (opcOf w) .illegalCommand (illegalInfo why) false) := by
  refine legalResponse_error (.inr ?_)
  rw [opcOf_toNat]
  obtain ⟨rfl, hopc⟩ | ⟨rfl, hopc, _⟩ | ⟨rfl, hopc, _⟩ := decode_illegal_cases h
  · exact .inl ⟨rfl, rfl, hopc⟩
  · exact .inr ⟨rfl, rfl, (by decide : [0, 3, 4] ⊆ [0, 2, 3, 4]) hopc⟩
  · exact .inr ⟨rfl, rfl, by simp [hopc]⟩

/-- Every accepted word puts one legal response at the back of RQ. -/
theorem acceptWord_rq {w : Word} {s t : State} (h : acceptWord w s = .next t) :
    ∃ r, LegalResponse r ∧ t.rq = s.rq ++ [r] := by
  obtain ⟨_, hd, rfl⟩ | ⟨_, rfl⟩ | ⟨_, _, _, _, _, rfl⟩ | ⟨_, _, _, hbad, rfl⟩ | ⟨_, _, rfl⟩ | ⟨_, rfl⟩ | ⟨_, rfl⟩ :=
    acceptWord_cases h
  · exact ⟨_, legalResponse_illegalCommand hd, rfl⟩
  · exact ⟨_, legalResponse_ok (by decide) (by decide), rfl⟩
  · exact ⟨_, legalResponse_ok (by decide) (by decide), rfl⟩
  · exact ⟨_, legalResponse_invalidConfiguration hbad, rfl⟩
  · exact ⟨_, legalResponse_ok (by decide) (by decide), rfl⟩
  · exact ⟨_, legalResponse_ok (opc := 3) (r := false) (by decide) (by decide), by simp⟩
  · exact ⟨_, legalResponse_ok (by decide) fun _ => rfl, rfl⟩

/-- What an accepted word does outside of the engine's rows: it advances the stream (10_state.md R31), and neither the
host's edges nor the responses it has taken change. -/
theorem acceptWord_counters {w : Word} {s t : State} (h : acceptWord w s = .next t) :
    t.n = s.n + 1 ∧ t.taken = s.taken ∧ t.port = s.port := by
  obtain ⟨_, _, rfl⟩ | ⟨_, rfl⟩ | ⟨_, _, _, _, _, rfl⟩ | ⟨_, _, _, _, rfl⟩ | ⟨_, _, rfl⟩ | ⟨_, rfl⟩ | ⟨_, rfl⟩ :=
    acceptWord_cases h <;> simp

/-! ### The response handshake (30_encoding.md R92) moves words from RQ to the host, and nothing else -/

section Handshake
variable (s : State) (rdy : Bool)

@[simp] theorem State.responseHandshake_size : (s.responseHandshake rdy).size = s.size := by
  rw [State.responseHandshake_eq]

@[simp] theorem State.responseHandshake_hashCount : (s.responseHandshake rdy).hashCount = s.hashCount := by
  rw [State.responseHandshake_eq]

@[simp] theorem State.responseHandshake_acc : (s.responseHandshake rdy).acc = s.acc := by
  rw [State.responseHandshake_eq]

@[simp] theorem State.responseHandshake_bits : (s.responseHandshake rdy).bits = s.bits := by
  rw [State.responseHandshake_eq]

@[simp] theorem State.responseHandshake_n : (s.responseHandshake rdy).n = s.n := by
  rw [State.responseHandshake_eq]

@[simp] theorem State.responseHandshake_port : (s.responseHandshake rdy).port = s.port := by
  rw [State.responseHandshake_eq]

/-- Taken and outstanding together stay the same list. -/
theorem State.responseHandshake_taken_append_rq :
    (s.responseHandshake rdy).taken ++ (s.responseHandshake rdy).rq = s.taken ++ s.rq := by
  rw [State.responseHandshake_eq]
  cases rdy with
  | false => rfl
  | true => simp only [if_true, List.append_assoc, List.take_append_drop]

theorem State.responseHandshake_rq_length_le : (s.responseHandshake rdy).rq.length ≤ s.rq.length := by
  rw [State.responseHandshake_eq]
  cases rdy with
  | false => exact le_rfl
  | true => simp

end Handshake

/-! ### The invariant of the queue and of the counters -/

theorem State.PortInv.responseHandshake {s : State} (h : s.PortInv) (rdy : Bool) :
    (s.responseHandshake rdy).PortInv where
  rq_le := by
    rw [State.responseHandshake_params]
    exact (s.responseHandshake_rq_length_le rdy).trans h.rq_le
  one_each := by
    rw [State.responseHandshake_n, ← List.length_append, State.responseHandshake_taken_append_rq, List.length_append]
    exact h.one_each
  legal := by rw [State.responseHandshake_taken_append_rq]; exact h.legal

/-- An accepted word keeps the queue's invariant where it finds room in RQ (70_reset_and_hazards.md R243). -/
theorem State.PortInv.acceptWord {w : Word} {s t : State} (hs : s.PortInv) (hroom : s.rq.length < s.params.rspDepth)
    (h : acceptWord w s = .next t) : t.PortInv := by
  obtain ⟨r, hr, hrq⟩ := acceptWord_rq h
  obtain ⟨hn, htaken, _⟩ := acceptWord_counters h
  constructor
  case rq_le => rw [hrq, acceptWord_params h, List.length_append]; exact hroom
  case one_each => rw [hn, htaken, hrq, hs.one_each, List.length_append]; rfl
  case legal =>
    rw [htaken, hrq, ← List.append_assoc]
    exact List.forall_mem_append.mpr ⟨hs.legal, by simpa using hr⟩

/-! ### The whole invariant: it holds at reset, and every step keeps it -/

theorem State.Inv.acceptWord {w : Word} {s t : State} (hs : s.Inv) (hroom : s.rq.length < s.params.rspDepth)
    (h : acceptWord w s = .next t) : t.Inv :=
  ⟨hs.engine.acceptWord h, hs.ports.acceptWord hroom h⟩

/-- The host's coming edges are no part of the invariant. -/
theorem State.Inv.withPort {s : State} (hs : s.Inv) (port : List HostEdge) : State.Inv { s with port := port } :=
  ⟨hs.engine.congr rfl rfl rfl rfl rfl, hs.ports.rq_le, hs.ports.one_each, hs.ports.legal⟩

theorem State.Inv.responseHandshake {s : State} (hs : s.Inv) (rdy : Bool) : (s.responseHandshake rdy).Inv :=
  ⟨hs.engine.congr (by simp) (by simp) (by simp) (by simp) (by simp), hs.ports.responseHandshake rdy⟩

/-- D00's defaults, SIZE 100 and HASHCOUNT 3, are in range whatever the parameters: R7 asks for SIZE_MAX ≥ 1000 and
HC_MAX ≥ 5. -/
theorem State.resetWith_engineInv (p : Params) : (State.resetWith p).EngineInv :=
  .of_cleared (le_trans (by decide : 100 ≤ 1000) p.sizeMax_ge) (le_trans (by decide : 3 ≤ 5) p.hcMax_ge) rfl
    Memory.nil_wf fun i _ => Memory.read_nil i

/-- Settles O23: a filter with the defaults and cleared lanes, and an empty queue with nothing accepted or taken. -/
theorem resetMeetsInvariant : Obligations.ResetMeetsInvariant := fun p =>
  { engine := State.resetWith_engineInv p
    ports := { rq_le := Nat.zero_le _, one_each := rfl, legal := by simp } }

/-- Settles O24, by the four things a step can do: idle, start over from the reset state, accept a word after the response
handshake (RQ has room for its response, since the handshake only shortens it), or make that handshake alone. -/
theorem stepKeepsInvariant : Obligations.StepKeepsInvariant := by
  intro s t hs h
  obtain ⟨_, rfl⟩ | ⟨_, rest, _, _, rfl⟩ | ⟨e, rest, _, _, _, hroom, _, haccept⟩ | ⟨e, rest, _, _, _, _, rfl⟩ :=
    step_cases h
  · exact hs
  · exact (resetMeetsInvariant s.params).withPort rest
  · refine ((hs.withPort rest).responseHandshake e.rspReady).acceptWord ?_ haccept
    rw [State.responseHandshake_params]
    exact (State.responseHandshake_rq_length_le _ _).trans_lt hroom
  · exact (hs.withPort rest).responseHandshake e.rspReady

/-! ### What may change within one filter lifetime (10_state.md R35, R39) -/

/-- A CONSTRUCT whose operands pass both checks starts a lifetime. -/
theorem startsLifetime_of_legal_construct {p : Params} {w : Word} {size hc : Nat}
    (hd : decode w = .cmd (.construct size hc)) (h1 : sizeBad p size = false) (h2 : hcBad p hc = false) :
    startsLifetime p w = true := by
  simp [startsLifetime, hd, h1, h2]

/-- Everything an accepted word can do to the rows SIZE, HASHCOUNT, BITS and ACC of 10_state.md R29, when it starts no
lifetime: nothing, advance the lanes, set the addressed slots and clear the lanes, or clear the lanes only. -/
theorem acceptWord_writes_in_lifetime {w : Word} {s t : State} (h : acceptWord w s = .next t)
    (hw : startsLifetime s.params w = false) :
    t.size = s.size ∧ t.hashCount = s.hashCount ∧
    ((t.bits = s.bits ∧ t.acc = s.acc) ∨
     (∃ code, decode w = .cmd (.char code) ∧ t.bits = s.bits ∧ t.acc = (s.feedCode code).acc) ∨
     (decode w = .cmd .insert ∧ t.bits = (s.setSlots s.indices).bits ∧ t.acc = s.clearLanes.acc) ∨
     (decode w = .cmd .query ∧ t.bits = s.bits ∧ t.acc = s.clearLanes.acc)) := by
  obtain ⟨_, _, rfl⟩ | ⟨_, rfl⟩ | ⟨_, _, h1, h2, hd, rfl⟩ | ⟨_, _, _, _, rfl⟩ | ⟨code, hd, rfl⟩ | ⟨hd, rfl⟩ | ⟨hd, rfl⟩ :=
    acceptWord_cases h
  · exact ⟨rfl, rfl, .inl ⟨rfl, rfl⟩⟩
  · exact ⟨rfl, rfl, .inl ⟨rfl, rfl⟩⟩
  · simp [startsLifetime_of_legal_construct hd h1 h2] at hw
  · exact ⟨rfl, rfl, .inl ⟨rfl, rfl⟩⟩
  · exact ⟨rfl, rfl, .inr (.inl ⟨code, hd, rfl, rfl⟩)⟩
  · exact ⟨by simp, by simp, .inr (.inr (.inl ⟨hd, by simp, by simp⟩))⟩
  · exact ⟨rfl, rfl, .inr (.inr (.inr ⟨hd, rfl, rfl⟩))⟩

/-- Settles O12: a change of the bit array or of the lanes rules out every case of `acceptWord_writes_in_lifetime` that leaves
them, and each case that remains names its command. -/
theorem onlyNamedCommandsWrite : Obligations.OnlyNamedCommandsWrite := by
  intro w s t h hw
  obtain ⟨hsize, hhc, ⟨hbits, hacc⟩ | ⟨code, hd, hbits, _⟩ | ⟨hd, _, _⟩ | ⟨hd, hbits, _⟩⟩ :=
    acceptWord_writes_in_lifetime h hw
  · exact ⟨hsize, hhc, fun hne => absurd hbits hne, fun hne => absurd hacc hne⟩
  · exact ⟨hsize, hhc, fun hne => absurd hbits hne, fun _ => .inl ⟨code, hd⟩⟩
  · exact ⟨hsize, hhc, fun _ => hd, fun _ => .inr (.inl hd)⟩
  · exact ⟨hsize, hhc, fun hne => absurd hbits hne, fun _ => .inr (.inr hd)⟩

/-- A slot that is 1 survives every accepted word that starts no lifetime: INSERT writes nothing but ones. -/
theorem acceptWord_keeps_set_slot {w : Word} {s t : State} {i : Nat} (h : acceptWord w s = .next t)
    (hw : startsLifetime s.params w = false) (hi : s.memRead i = 1) : t.memRead i = 1 := by
  have keep (hbits : t.bits = s.bits) : t.memRead i = 1 := (State.memRead_congr hbits i).trans hi
  obtain ⟨_, _, ⟨hbits, _⟩ | ⟨_, _, hbits, _⟩ | ⟨_, hbits, _⟩ | ⟨_, hbits, _⟩⟩ := acceptWord_writes_in_lifetime h hw
  · exact keep hbits
  · exact keep hbits
  · rw [State.memRead_congr hbits, State.memRead_setSlots, hi, ite_self]
  · exact keep hbits

/-- A step uses up one edge of the host's. -/
theorem step_port {s t : State} (h : step s = .next t) : t.port = s.port.tail := by
  obtain ⟨hp, rfl⟩ | ⟨_, _, hp, _, rfl⟩ | ⟨_, _, hp, _, _, _, _, haccept⟩ | ⟨_, _, hp, _, _, _, rfl⟩ := step_cases h
  · rw [hp]; rfl
  · rw [hp]; rfl
  · obtain ⟨_, _, hport⟩ := acceptWord_counters haccept
    rw [hport, State.responseHandshake_port, hp]; rfl
  · rw [State.responseHandshake_port, hp]; rfl

theorem State.NoReset.step {s t : State} (hs : s.NoReset) (h : step s = .next t) : t.NoReset := by
  intro e he
  rw [step_port h] at he
  exact hs e (List.mem_of_mem_tail he)

/-- The induction over one lifetime: what the response handshake keeps, and every accepted word that starts no lifetime,
holds after any number of such steps. -/
theorem stepN_keeps_in_lifetime {P : State → Prop}
    (handshake : ∀ s rest rdy, P s → P (State.responseHandshake { s with port := rest } rdy))
    (accept : ∀ w s t, acceptWord w s = .next t → startsLifetime s.params w = false → P s → P t)
    {k : Nat} {s t : State} (hreset : s.NoReset) (hlife : ∀ w ∈ acceptedIn k s, startsLifetime s.params w = false)
    (h : stepN k s = .next t) (hs : P s) : P t := by
  induction k generalizing s with
  | zero => cases h; exact hs
  | succ k ih =>
    obtain ⟨u, hstep, hrest⟩ := stepN_succ_next.mp h
    rw [acceptedIn_succ_next hstep, List.forall_mem_append] at hlife
    obtain ⟨hfirst, hlater⟩ := hlife
    rw [← stepKeepsParameters s u hstep] at hlater
    refine ih (hreset.step hstep) hlater hrest ?_
    obtain ⟨_, rfl⟩ | ⟨e, rest, hp, hr, _⟩ | ⟨e, rest, _, _, _, _, hword, haccept⟩ | ⟨e, rest, _, _, _, _, rfl⟩ :=
      step_cases hstep
    · exact hs
    · simp [hreset e (by simp [hp])] at hr
    · refine accept e.cmdData _ u haccept ?_ (handshake s rest e.rspReady hs)
      rw [State.responseHandshake_params]
      exact hfirst e.cmdData (by simp [hword])
    · exact handshake s rest e.rspReady hs

/-- Settles O27, by the induction over one lifetime: no word but a successful CONSTRUCT writes either register. -/
theorem configurationConstantInLifetime : Obligations.ConfigurationConstantInLifetime := by
  intro k s t hreset hlife h
  refine stepN_keeps_in_lifetime (P := fun u => u.size = s.size ∧ u.hashCount = s.hashCount) ?_ ?_ hreset hlife h
    ⟨rfl, rfl⟩
  · rintro u rest rdy ⟨hsize, hhc⟩
    exact ⟨by simpa using hsize, by simpa using hhc⟩
  · rintro w u v haccept hw ⟨hsize, hhc⟩
    obtain ⟨hsize', hhc', _⟩ := acceptWord_writes_in_lifetime haccept hw
    exact ⟨hsize'.trans hsize, hhc'.trans hhc⟩

/-- Settles O28, by the induction over one lifetime. -/
theorem slotsNeverClearedInLifetime : Obligations.SlotsNeverClearedInLifetime := by
  intro k s t i hreset hlife h hi
  refine stepN_keeps_in_lifetime (P := fun u => u.memRead i = 1) ?_ ?_ hreset hlife h hi
  · intro u rest rdy hu
    exact (State.memRead_congr (State.responseHandshake_bits _ rdy) i).trans hu
  · intro w u v haccept hw hu
    exact acceptWord_keeps_set_slot haccept hw hu

end Sys2Proof.Machine

namespace Sys2Proof.Machine

/-! ### An index outside the address space (20_memory.md R60) -/

/-- Settles O11: the lane gives an index of the list that is missing, and both commands stop on the first such index. -/
theorem missingSlotStopsInsertAndQuery : Obligations.MissingSlotStopsInsertAndQuery := by
  intro s j h1 hj hlane
  obtain ⟨i, hi⟩ := State.missingSlot_isSome h1 hj hlane
  obtain ⟨_, hbound⟩ := State.missingSlot_some hi
  exact ⟨i, hbound, execInsert_fault hi, execQuery_fault hi⟩

/-! ### A word offered to an engine that has room runs at the next edge -/

/-- An edge at which the host is not ready takes no response. -/
theorem State.responseHandshake_false (s : State) : s.responseHandshake false = s := by
  rw [State.responseHandshake_eq]; rfl

/-- RSP_DEPTH is at least 1 (00_scope.md R7), so taking responses can always make room. -/
theorem State.makeRoom_room (s : State) : s.makeRoom.rq.length < s.makeRoom.params.rspDepth := by
  have := s.params.rspDepth_ge
  rw [State.makeRoom_rq, State.makeRoom_params, List.length_drop]
  omega

/-- Where there is room already, no response leaves RQ. -/
theorem State.makeRoom_rq_of_room {s : State} (h : s.rq.length < s.params.rspDepth) : s.makeRoom.rq = s.rq := by
  rw [State.makeRoom_rq, Nat.sub_eq_zero_of_le h, List.drop_zero]

/-- Making room loses and reorders no response. -/
theorem State.makeRoom_taken_append_rq (s : State) : s.makeRoom.taken ++ s.makeRoom.rq = s.taken ++ s.rq := by
  rw [State.makeRoom_taken, State.makeRoom_rq, List.append_assoc, List.take_append_drop]

/-- Where there is room, the step after an offer accepts the offered word. -/
theorem step_offerWord {s : State} (h : s.rq.length < s.params.rspDepth) (w : Word) :
    step (s.offerWord w) = acceptWord w s := by
  rw [step_accept (State.offerWord_port s w) rfl rfl h, State.responseHandshake_false]
  rfl

/-- Settles O22: the offered word is accepted at the state in which room has been made and the command is counted. -/
theorem offeredWordRunsNext : Obligations.OfferedWordRunsNext := by
  intro s w i hd
  have hstep : step (s.withFetchWord 32 w.toNat) = exec i s.makeRoom.countCommand := by
    rw [State.withFetchWord, step_offerWord s.makeRoom_room, Nat.mod_eq_of_lt w.isLt, BitVec.ofNat_toNat,
      BitVec.setWidth_eq, acceptWord_of_decode hd]
  exact ⟨s.makeRoom.countCommand, hstep, rfl, s.makeRoom_taken_append_rq, State.makeRoom_rq_of_room⟩

/-! ### The engine's state decides the response (20_memory.md R69) -/

/-- Two states with the same engine: they differ at most in RQ, in the position, and in the host's side of the ports. -/
structure State.SameEngine (s s' : State) : Prop where
  params    : s'.params = s.params
  size      : s'.size = s.size
  hashCount : s'.hashCount = s.hashCount
  acc       : s'.acc = s.acc
  bits      : s'.bits = s.bits

section SameEngine
variable {s s' : State} (h : s.SameEngine s')
include h

theorem State.SameEngine.symm : s'.SameEngine s :=
  ⟨h.params.symm, h.size.symm, h.hashCount.symm, h.acc.symm, h.bits.symm⟩

/-! Same engines read alike. -/

theorem State.SameEngine.indices : s'.indices = s.indices := State.indices_congr h.hashCount h.acc

theorem State.SameEngine.missingSlot : s'.missingSlot s'.indices = s.missingSlot s.indices := by
  unfold State.missingSlot; rw [h.indices, h.params]

theorem State.SameEngine.allSet : s'.allSet s'.indices = s.allSet s.indices := by
  unfold State.allSet; rw [h.indices]; simp only [State.memRead_congr h.bits]

/-! Each named operation keeps engines the same. -/

theorem State.SameEngine.countCommand : s.countCommand.SameEngine s'.countCommand :=
  ⟨h.params, h.size, h.hashCount, h.acc, h.bits⟩

theorem State.SameEngine.respond (opc : BitVec 4) (st : Status) (info : Info) (r : Bool) :
    (s.respond opc st info r).SameEngine (s'.respond opc st info r) :=
  ⟨h.params, h.size, h.hashCount, h.acc, h.bits⟩

theorem State.SameEngine.clearLanes : s.clearLanes.SameEngine s'.clearLanes :=
  ⟨h.params, h.size, h.hashCount, by rw [State.clearLanes_acc, State.clearLanes_acc, h.params], h.bits⟩

theorem State.SameEngine.setSlots : (s.setSlots s.indices).SameEngine (s'.setSlots s'.indices) :=
  ⟨by simpa using h.params, by simpa using h.size, by simpa using h.hashCount, by simpa using h.acc,
    by rw [State.setSlots_bits, State.setSlots_bits, h.indices, h.bits]⟩

theorem State.SameEngine.feedCode (code : Nat) : (s.feedCode code).SameEngine (s'.feedCode code) :=
  ⟨h.params, h.size, h.hashCount,
    by rw [State.feedCode_acc, State.feedCode_acc, State.sizeNat_congr h.size, State.hcNat_congr h.hashCount, h.acc],
    h.bits⟩

theorem State.SameEngine.startFilter (size : SizeReg) (hc : HashCountReg) :
    (s.startFilter size hc).SameEngine (s'.startFilter size hc) :=
  ⟨h.params, rfl, rfl, by rw [State.startFilter_acc, State.startFilter_acc, h.params], rfl⟩

/-- What a command does to one state it does to every state with the same engine, and the response is the same. -/
theorem State.SameEngine.exec {i : Instr} {t : State} (hx : exec i s = .next t) :
    ∃ (t' : State) (r : Word), Machine.exec i s' = .next t' ∧ t.SameEngine t' ∧
      t.rq = s.rq ++ [r] ∧ t'.rq = s'.rq ++ [r] := by
  cases i with
  | nop =>
    cases hx
    exact ⟨_, _, execNop_eq s', h.respond .., rfl, rfl⟩
  | construct size hc =>
    by_cases hlegal : sizeBad s.params size = false ∧ hcBad s.params hc = false
    · rw [execConstruct_legal hlegal.1 hlegal.2] at hx
      cases hx
      rw [← h.params] at hlegal
      exact ⟨_, _, execConstruct_legal hlegal.1 hlegal.2, (h.startFilter ..).respond .., rfl, rfl⟩
    · rw [execConstruct_illegal hlegal] at hx
      cases hx
      rw [← h.params] at hlegal ⊢
      exact ⟨_, _, execConstruct_illegal hlegal, h.respond .., rfl, rfl⟩
  | char code =>
    cases hx
    exact ⟨_, _, execChar_eq code s', (h.feedCode code).respond .., rfl, rfl⟩
  | insert =>
    cases hm : s.missingSlot s.indices with
    | some k => rw [execInsert_fault hm] at hx; cases hx
    | none =>
      rw [execInsert_next hm] at hx
      cases hx
      exact ⟨_, responseWord 0x3 .ok .none false, execInsert_next (h.missingSlot.trans hm),
        h.setSlots.clearLanes.respond .., by simp, by simp⟩
  | query =>
    cases hm : s.missingSlot s.indices with
    | some k => rw [execQuery_fault hm] at hx; cases hx
    | none =>
      rw [execQuery_next hm] at hx
      cases hx
      rw [← h.allSet]
      exact ⟨_, _, execQuery_next (h.missingSlot.trans hm), h.clearLanes.respond .., rfl, rfl⟩

/-- The same of an accepted word, which a decoder's rejection answers alike too. -/
theorem State.SameEngine.acceptWord {w : Word} {t : State} (hw : acceptWord w s = .next t) :
    ∃ (t' : State) (r : Word), Machine.acceptWord w s' = .next t' ∧ t.SameEngine t' ∧
      t.rq = s.rq ++ [r] ∧ t'.rq = s'.rq ++ [r] := by
  cases hd : decode w with
  | cmd i =>
    rw [acceptWord_of_decode hd] at hw ⊢
    exact h.countCommand.exec hw
  | illegal why =>
    rw [acceptWord_of_illegal hd] at hw
    cases hw
    exact ⟨_, _, acceptWord_of_illegal hd s', h.countCommand.respond .., rfl, rfl⟩

end SameEngine

/-- Settles O15: an accepted word answers alike in states with the same engine. -/
theorem responseDependsOnEngineStateOnly : Obligations.ResponseDependsOnEngineStateOnly := by
  intro w s s' t hparams hsize hhc hacc hbits hw
  have hsame : s.SameEngine s' := ⟨hparams, hsize, hhc, hacc, hbits⟩
  obtain ⟨t', r, hw', ht, hrq, hrq'⟩ := hsame.acceptWord hw
  exact ⟨t', r, hw', ht.size, ht.hashCount, ht.acc, ht.bits, hrq, hrq'⟩

end Sys2Proof.Machine

namespace Sys2Proof.Machine

/-! ### Any handshakes refine strictly sequential execution (20_memory.md R63) -/

/-- The simulation relation: `u`, which executes sequentially, has the engine, the position and the responses of `s`. How
many of the responses the host has taken, and its coming edges, may differ. -/
structure State.Refines (s u : State) : Prop where
  engine    : s.SameEngine u
  position  : u.n = s.n
  responses : u.taken ++ u.rq = s.taken ++ s.rq

theorem State.Refines.refl (s : State) : s.Refines s := ⟨⟨rfl, rfl, rfl, rfl, rfl⟩, rfl, rfl⟩

/-- The response handshake is invisible to sequential execution. -/
theorem State.Refines.responseHandshake {s u : State} (h : s.Refines u) (rest : List HostEdge) (rdy : Bool) :
    (State.responseHandshake { s with port := rest } rdy).Refines u where
  engine := ⟨by simpa using h.engine.params, by simpa using h.engine.size, by simpa using h.engine.hashCount,
    by simpa using h.engine.acc, by simpa using h.engine.bits⟩
  position := by simpa using h.position
  responses := by rw [State.responseHandshake_taken_append_rq]; exact h.responses

/-- Sequential execution follows an accepted word. -/
theorem State.Refines.acceptWord {w : Word} {s t u : State} (h : s.Refines u) (hw : acceptWord w s = .next t) :
    ∃ v, Machine.acceptWord w u = .next v ∧ t.Refines v := by
  obtain ⟨v, r, hv, hengine, hrq, hrq'⟩ := h.engine.acceptWord hw
  obtain ⟨hn, htaken, _⟩ := acceptWord_counters hw
  obtain ⟨hn', htaken', _⟩ := acceptWord_counters hv
  refine ⟨v, hv, hengine, by rw [hn, hn', h.position], ?_⟩
  rw [htaken, htaken', hrq, hrq', ← List.append_assoc, ← List.append_assoc, h.responses]

/-- Sequential execution follows a step without a reset, by running the word accepted at it, if there is one. -/
theorem State.Refines.step {s t u : State} (h : s.Refines u) (hreset : s.NoReset) (hstep : step s = .next t) :
    ∃ v, runWords s.acceptedWord.toList u = .next v ∧ t.Refines v := by
  obtain ⟨hp, rfl⟩ | ⟨e, rest, hp, hr, _⟩ | ⟨e, rest, _, _, _, _, hword, haccept⟩ | ⟨e, rest, _, _, _, hword, rfl⟩ :=
    step_cases hstep
  · exact ⟨u, by simp [State.acceptedWord, hp], h⟩
  · simp [hreset e (by simp [hp])] at hr
  · obtain ⟨v, hv, hrefines⟩ := (h.responseHandshake rest e.rspReady).acceptWord haccept
    rw [hword]
    exact ⟨v, runWords_cons_next.mpr ⟨v, hv, rfl⟩, hrefines⟩
  · rw [hword]
    exact ⟨u, rfl, h.responseHandshake rest e.rspReady⟩

/-- Sequential execution follows any number of steps without a reset, from every state that it refines. -/
theorem State.Refines.stepN {k : Nat} {s t u : State} (h : s.Refines u) (hreset : s.NoReset)
    (hsteps : stepN k s = .next t) : ∃ v, runWords (acceptedIn k s) u = .next v ∧ t.Refines v := by
  induction k generalizing s u with
  | zero => cases hsteps; exact ⟨u, rfl, h⟩
  | succ k ih =>
    obtain ⟨m, hstep, hrest⟩ := stepN_succ_next.mp hsteps
    obtain ⟨v, hv, hm⟩ := h.step hreset hstep
    obtain ⟨v', hv', ht⟩ := ih hm (hreset.step hstep) hrest
    rw [acceptedIn_succ_next hstep]
    exact ⟨v', runWords_append_next.mpr ⟨v, hv, hv'⟩, ht⟩

/-- Settles O29, by the simulation: a state refines itself, and every step keeps it in step with sequential execution. -/
theorem stepsRefineSequentialExecution : Obligations.StepsRefineSequentialExecution := by
  intro k s t hreset hsteps
  obtain ⟨u, hu, h⟩ := (State.Refines.refl s).stepN hreset hsteps
  have hengine := h.engine.symm
  exact ⟨u, hu, hengine.size, hengine.hashCount, hengine.acc, hengine.bits, h.position.symm, h.responses.symm⟩

end Sys2Proof.Machine

namespace Sys2Proof

/-! ### The encoder and the decoder are inverse (30_encoding.md R94 to R98) -/

theorem Instr.wellFormed_construct {size hashCount : Nat} :
    (Instr.construct size hashCount).wellFormed = true ↔ size < 2 ^ 20 ∧ hashCount < 2 ^ 8 := by
  simp [Instr.wellFormed, sizeFits, hashCountFits]

theorem Instr.wellFormed_char {code : Nat} : (Instr.char code).wellFormed = true ↔ code < 2 ^ 21 := by
  simp [Instr.wellFormed, codeFits]

/-- Format C (R94): OPC, HC and SZ of the encoded word. -/
theorem field_encode_construct {size hashCount : Nat} (hsize : size < 2 ^ 20) (hhc : hashCount < 2 ^ 8) :
    field (encode (.construct size hashCount)) 31 28 = 1 ∧
    field (encode (.construct size hashCount)) 27 20 = hashCount ∧
    field (encode (.construct size hashCount)) 19 0 = size := by
  have hrest : hashCount * 2 ^ 20 + size < 2 ^ 28 := by omega
  refine ⟨field_opcodeWord (by decide) hrest, ?_, ?_⟩ <;>
    rw [encode, field_opcodeWord_low (by decide) hrest (by decide) (by decide)] <;> omega

/-- Format X (R94): OPC, RES and CODE of the encoded word. -/
theorem field_encode_char {code : Nat} (hcode : code < 2 ^ 21) :
    field (encode (.char code)) 31 28 = 2 ∧ field (encode (.char code)) 27 21 = 0 ∧
    field (encode (.char code)) 20 0 = code := by
  have hrest : code < 2 ^ 28 := by omega
  refine ⟨field_opcodeWord (by decide) hrest, ?_, ?_⟩ <;>
    rw [encode, field_opcodeWord_low (by decide) hrest (by decide) (by decide)] <;> omega

theorem decode_of_construct {w : Word} (hopc : field w 31 28 = 1) :
    decode w = .cmd (.construct (field w 19 0) (field w 27 20)) := by
  simp only [decode, hopc]

theorem decode_of_char {w : Word} (hopc : field w 31 28 = 2) (hres : field w 27 21 = 0) :
    decode w = .cmd (.char (field w 20 0)) := by
  simp only [decode, reservedZero, hopc, hres, if_true]

/-- Settles O1, one case per command: the two with operands by the fields of their words, the others by their one word. -/
theorem decodeInvertsEncode : Obligations.DecodeInvertsEncode := by
  intro i hwf
  cases i with
  | nop => decide
  | construct size hashCount =>
    obtain ⟨hsize, hhc⟩ := Instr.wellFormed_construct.mp hwf
    obtain ⟨fopc, fhc, fsize⟩ := field_encode_construct hsize hhc
    rw [decode_of_construct fopc, fhc, fsize]
  | char code =>
    obtain ⟨fopc, fres, fcode⟩ := field_encode_char (Instr.wellFormed_char.mp hwf)
    rw [decode_of_char fopc fres, fcode]
  | insert => decide
  | query => decide

/-- Bits 27..0 of a word are the field above a cut at bit `k` and the field below it. -/
theorem field_low_split (w : Word) {k : Nat} (hk : k < 27) :
    field w 27 0 = field w 27 (k + 1) * 2 ^ (k + 1) + field w k 0 := by
  have hpow : 2 ^ 28 = 2 ^ (k + 1) * 2 ^ (28 - (k + 1)) := by rw [← Nat.pow_add, Nat.add_sub_cancel' (by omega)]
  simp only [field, Nat.pow_zero, Nat.div_one, Nat.sub_zero, Nat.reduceAdd]
  rw [hpow, Nat.mod_mul, Nat.add_comm, Nat.mul_comm]

/-- Settles O2, one case per row of the opcode map: a field's value fits it, and OPC and the low bits give the word back. -/
theorem encodeInvertsDecode : Obligations.EncodeInvertsDecode := by
  intro w i hd
  obtain ⟨hopc, hlow, rfl⟩ | ⟨hopc, rfl⟩ | ⟨hopc, hres, rfl⟩ | ⟨hopc, hlow, rfl⟩ | ⟨hopc, hlow, rfl⟩ :=
    decode_cmd_cases hd
  · exact ⟨rfl, eq_opcodeWord hopc hlow⟩
  · exact ⟨Instr.wellFormed_construct.mpr ⟨field_lt w 19 0, field_lt w 27 20⟩,
      eq_opcodeWord hopc (field_low_split w (by decide))⟩
  · refine ⟨Instr.wellFormed_char.mpr (field_lt w 20 0), eq_opcodeWord hopc ?_⟩
    rw [field_low_split w (by decide : 20 < 27), hres, Nat.zero_mul, Nat.zero_add]
  · exact ⟨rfl, eq_opcodeWord hopc hlow⟩
  · exact ⟨rfl, eq_opcodeWord hopc hlow⟩

/-- One row of a table of examples: that the command encodes to the word is enough for both directions. -/
theorem decode_and_encode_of_encode {w : Word} {i : Instr} (hwf : i.wellFormed = true) (h : encode i = w) :
    decode w = .cmd i ∧ encode i = w :=
  ⟨h ▸ decodeInvertsEncode i hwf, h⟩

/-- Settles O3: each row's command is well formed and encodes to the row's word. -/
theorem exampleWordsDecode : Obligations.ExampleWordsDecode := by
  refine ⟨?_, ?_, ?_, ?_, ?_, ?_, ?_, ?_, ?_⟩ <;> exact decode_and_encode_of_encode (by decide) (by decide)

/-- A word that decodes has its command's opcode in OPC (R95). -/
theorem field_opc_of_decode {w : Word} {i : Instr} (hd : decode w = .cmd i) : field w 31 28 = Laws.Opcode.opcode i := by
  obtain ⟨hopc, _, rfl⟩ | ⟨hopc, rfl⟩ | ⟨hopc, _, rfl⟩ | ⟨hopc, _, rfl⟩ | ⟨hopc, _, rfl⟩ := decode_cmd_cases hd <;>
    exact hopc

end Sys2Proof

namespace Sys2Proof.Machine

/-! ### The one response of an accepted command (30_encoding.md R104) -/

/-- The response at the back of RQ copies the OPC field of the accepted word. -/
theorem acceptWord_response {w : Word} {s t : State} (h : acceptWord w s = .next t) :
    ∃ (opc : BitVec 4) (st : Status) (info : Info) (r : Bool),
      opc.toNat = field w 31 28 ∧ t.rq = s.rq ++ [responseWord opc st info r] := by
  obtain ⟨_, _, rfl⟩ | ⟨hd, rfl⟩ | ⟨_, _, _, _, hd, rfl⟩ | ⟨_, _, hd, _, rfl⟩ | ⟨_, hd, rfl⟩ | ⟨hd, rfl⟩ | ⟨hd, rfl⟩ :=
    acceptWord_cases h
  · exact ⟨_, _, _, _, opcOf_toNat w, rfl⟩
  · exact ⟨0, _, _, _, (field_opc_of_decode hd).symm, rfl⟩
  · exact ⟨1, _, _, _, (field_opc_of_decode hd).symm, rfl⟩
  · exact ⟨1, _, _, _, (field_opc_of_decode hd).symm, rfl⟩
  · exact ⟨2, _, _, _, (field_opc_of_decode hd).symm, rfl⟩
  · exact ⟨3, .ok, .none, false, (field_opc_of_decode hd).symm, by simp⟩
  · exact ⟨4, _, _, _, (field_opc_of_decode hd).symm, rfl⟩

/-- Settles O13: the response of `acceptWord_response`, its fields, and what an accepted word does to the counters. -/
theorem everyCommandAppendsOneResponse : Obligations.EveryCommandAppendsOneResponse := by
  refine ⟨fun w s t h => ?_, responseWord_fields⟩
  obtain ⟨opc, st, info, r, hopc, hrq⟩ := acceptWord_response h
  obtain ⟨fopc, fzero, _, _, fzero', _⟩ := responseWord_fields opc st info r
  obtain ⟨hn, htaken, _⟩ := acceptWord_counters h
  exact ⟨_, hrq, fopc.trans hopc, fzero, fzero', hn, htaken⟩

/-! ### The two handshakes of an edge (30_encoding.md R91, R92) -/

/-- Settles O16: the step accepts the word at the state after the response handshake, where it runs the command. -/
theorem stepExecutesDecodedCommand : Obligations.StepExecutesDecodedCommand := by
  intro s e rest i hp hr hv hroom hd
  rw [step_accept hp hr hv hroom, acceptWord_of_decode hd, State.responseHandshake_eq]
  rfl

/-- Settles O18: the step is the response handshake alone. -/
theorem stepWithoutAcceptance : Obligations.StepWithoutAcceptance := by
  intro s e rest hp hr hv
  rw [step_no_accept hp hr hv, State.responseHandshake_eq]

/-- The host takes the oldest response, and the rest of the queue stays. -/
theorem State.responseHandshake_true_of_cons {s : State} {r : Word} {rs : List Word} (h : s.rq = r :: rs) :
    (s.responseHandshake true).taken = s.taken ++ [r] ∧ (s.responseHandshake true).rq = rs := by
  rw [State.responseHandshake_eq, h]
  exact ⟨rfl, rfl⟩

/-- The handshake reads no coming edge. -/
theorem State.responseHandshake_withPort (s : State) (rest : List HostEdge) (rdy : Bool) :
    State.responseHandshake { s with port := rest } rdy = { s.responseHandshake rdy with port := rest } := by
  rw [State.responseHandshake_eq, State.responseHandshake_eq]

/-- An edge without a reset makes the response handshake, and then appends one response to RQ exactly when a word is
accepted at it. -/
theorem step_queue {s t : State} {e : HostEdge} {rest : List HostEdge} (hp : s.port = e :: rest) (hr : e.rst = false)
    (h : step s = .next t) :
    t.taken = (s.responseHandshake e.rspReady).taken ∧
    ((s.acceptedWord = none ∧ t.rq = (s.responseHandshake e.rspReady).rq) ∨
     ∃ w new, s.acceptedWord = some w ∧ t.rq = (s.responseHandshake e.rspReady).rq ++ [new]) := by
  obtain ⟨hp', _⟩ | ⟨_, _, hp', hr', _⟩ | ⟨_, _, hp', _, _, _, hword, haccept⟩ | ⟨_, _, hp', _, _, hword, rfl⟩ :=
    step_cases h <;> rw [hp] at hp' <;> cases hp'
  · rw [hr] at hr'; cases hr'
  · rw [State.responseHandshake_withPort] at haccept
    obtain ⟨_, htaken, _⟩ := acceptWord_counters haccept
    obtain ⟨new, _, hrq⟩ := acceptWord_rq haccept
    exact ⟨htaken, .inr ⟨_, new, hword, hrq⟩⟩
  · rw [State.responseHandshake_withPort]
    exact ⟨rfl, .inl ⟨hword, rfl⟩⟩

theorem State.rspValid_iff {s : State} : s.rspValid false = true ↔ s.rq ≠ [] := by
  simp [State.rspValid]

@[simp] theorem State.rspData_false (s : State) : s.rspData false = s.rq.head? := rfl

/-- Settles O19, by what an edge does to RQ: with `rsp_ready` the handshake takes its head, without it the head stays, and a
word accepted at the edge only appends. -/
theorem responseHandshakeTakesOldest : Obligations.ResponseHandshakeTakesOldest := by
  refine ⟨fun s => State.rspValid_iff, fun s r rs hrq => by rw [State.rspData_false, hrq, List.head?_cons], ?_, ?_⟩
  · intro s e rest r rs t hp hr hrdy hrq h
    have hqueue := step_queue hp hr h
    obtain ⟨htaken', hrq'⟩ := State.responseHandshake_true_of_cons hrq
    rw [hrdy, htaken', hrq'] at hqueue
    obtain ⟨htaken, ⟨hnone, ht⟩ | ⟨w, new, hsome, ht⟩⟩ := hqueue
    · exact ⟨htaken, fun _ => ht, fun _ hw => by simp [hnone] at hw⟩
    · exact ⟨htaken, fun hw => by simp [hsome] at hw, fun _ _ => ⟨new, ht⟩⟩
  · intro s e rest r t hp hr hrdy hdata h
    have hqueue := step_queue hp hr h
    rw [hrdy, State.responseHandshake_false] at hqueue
    rw [State.rspData_false] at hdata ⊢
    obtain ⟨htaken, ⟨_, ht⟩ | ⟨_, new, _, ht⟩⟩ := hqueue
    · exact ⟨ht ▸ hdata, htaken⟩
    · exact ⟨by rw [ht, List.head?_append, hdata, Option.some_or], htaken⟩

/-- A word is accepted where it is offered without a reset and RQ has room. -/
theorem State.acceptedWord_of_room {s : State} {e : HostEdge} {rest : List HostEdge} (hp : s.port = e :: rest)
    (hr : e.rst = false) (hv : e.cmdValid = true) (hroom : s.rq.length < s.params.rspDepth) :
    s.acceptedWord = some e.cmdData := by
  simp [State.acceptedWord, State.cmdReady, hp, hr, hv, hroom]

/-- Settles O31: the queue was full and no longer, so a response taken leaves room for the held word. -/
theorem heldOfferIsAccepted : Obligations.HeldOfferIsAccepted := by
  intro s e f rest hs hp hr hr' hv hrdy hnone hhold
  have hfull : s.params.rspDepth ≤ s.rq.length := by
    by_contra hroom
    rw [State.acceptedWord_of_room hp hr hv (Nat.lt_of_not_le hroom)] at hnone
    cases hnone
  obtain ⟨hv', hdata⟩ := hhold e f rest hp hr hv hnone
  refine ⟨_, stepWithoutAcceptance s e (f :: rest) hp hr (.inr hfull), ?_⟩
  rw [← hdata]
  refine State.acceptedWord_of_room rfl hr' hv' ?_
  have hle := hs.ports.rq_le
  have hdepth := s.params.rspDepth_ge
  simp only [hrdy, if_true, List.length_drop]
  omega

/-! ### The assembler (30_encoding.md R110, R111) -/

theorem assembleInstr_of_wellFormed {i : Instr} (h : i.wellFormed = true) : assembleInstr i = some [encode i] :=
  if_pos h

theorem assembleInstr_of_not_wellFormed {i : Instr} (h : ¬ i.wellFormed = true) : assembleInstr i = none :=
  if_neg h

/-- A well-formed command assembles to one word, which decodes to it. -/
theorem assembleInstr_decodes {i : Instr} (h : i.wellFormed = true) :
    ∃ w, assembleInstr i = some [w] ∧ decode w = .cmd i :=
  ⟨encode i, assembleInstr_of_wellFormed h, decodeInvertsEncode i h⟩

/-- Settles O43: the operands that fit are those of the well-formed commands. -/
theorem assemblerChecksFieldRanges : Obligations.AssemblerChecksFieldRanges := by
  intro enc size hashCount code value
  refine ⟨fun h => assembleInstr_decodes (Instr.wellFormed_construct.mpr h), fun h => ?_,
    fun h => assembleInstr_decodes (Instr.wellFormed_char.mpr h), fun h => ?_, fun h => ?_, fun h => ?_⟩
  · refine assembleInstr_of_not_wellFormed (mt Instr.wellFormed_construct.mp ?_)
    omega
  · exact assembleInstr_of_not_wellFormed (mt Instr.wellFormed_char.mp h.not_gt)
  · exact ⟨BitVec.ofNat 32 value, if_pos h, by rw [BitVec.toNat_ofNat, Nat.mod_eq_of_lt h]⟩
  · exact if_neg h.not_gt

/-- Settles O44: the expansions are those of the assembler, and every code of an encoding fits its field (00_scope.md R7). -/
theorem pseudoInstructionExpansions : Obligations.PseudoInstructionExpansions := by
  intro enc s
  refine ⟨rfl, rfl, rfl, rfl, fun hempty => ?_, fun c hc => ?_⟩
  · simp only [assembleLine, hempty]
    exact ⟨rfl, rfl⟩
  · exact decodeInvertsEncode (.char c) (Instr.wellFormed_char.mpr (enc.codes_lt s c hc))

end Sys2Proof.Machine

namespace Sys2Proof.Machine

/-! ### The configuration commands NOP and CONSTRUCT (40_construct.md) -/

/-- A well-formed command has one word, its encoding (30_encoding.md R94, R95, R97). -/
theorem decode_eq_cmd_iff {w : Word} {i : Instr} (hwf : i.wellFormed = true) : decode w = .cmd i ↔ w = encode i := by
  constructor
  · intro hd
    obtain ⟨_, henc⟩ := encodeInvertsDecode w i hd
    exact henc.symm
  · rintro rfl
    exact decodeInvertsEncode i hwf

/-- Settles O5: a well-formed command has one word, NOP's meaning is its response alone, and its format is Z. -/
theorem nopOnlyResponds : Obligations.NopOnlyResponds := by
  refine ⟨fun w => decode_eq_cmd_iff rfl, fun s => execNop_eq s, fun w hopc hres => ?_⟩
  exact decode_of_format_z (by simp [hopc]) hres

/-- Settles O6: both range checks pass, so the command leaves `State.startFilter` and its response. -/
theorem constructStartsEmptyFilter : Obligations.ConstructStartsEmptyFilter := by
  intro s size hashCount hsize hsizeMax hhc hhcMax
  have h1 : sizeBad s.params size = false := sizeBad_false_iff.mpr ⟨hsize, hsizeMax⟩
  have h2 : hcBad s.params hashCount = false := hcBad_false_iff.mpr ⟨hhc, hhcMax⟩
  exact ⟨_, execConstruct_legal h1 h2, SizeReg.ofChecked_toNat h1, HashCountReg.ofChecked_toNat h2,
    fun i => Memory.read_nil i, fun j => State.lane_of_replicate rfl j, rfl⟩

/-- R106: each INFO bit of a response word is at its own place. -/
theorem responseWord_info_bits (opc : BitVec 4) (st : Status) (info : Info) (r : Bool) :
    field (responseWord opc st info r) 8 8 = info.sizeBad.toNat ∧
    field (responseWord opc st info r) 9 9 = info.hcBad.toNat ∧
    field (responseWord opc st info r) 11 10 = info.opcReserved.toNat + 2 * info.fieldNonzero.toNat := by
  have hst := st.code_le
  have hr := r.toNat_le
  have h8 := info.sizeBad.toNat_le
  have h9 := info.hcBad.toNat_le
  have h10 := info.opcReserved.toNat_le
  have h11 := info.fieldNonzero.toNat_le
  simp only [field, responseWord_toNat, Info.code]
  omega

/-- Settles O7: a range check fails, so the command only raises INVALID_CONFIGURATION, with each check in its INFO bit. -/
theorem constructRejectsIllegalOperands : Obligations.ConstructRejectsIllegalOperands := by
  intro s size hashCount hbad
  simp only [← sizeBad_iff, ← hcBad_iff] at hbad ⊢
  have hfail : ¬ (sizeBad s.params size = false ∧ hcBad s.params hashCount = false) := by
    rintro ⟨h1, h2⟩
    simp [h1, h2] at hbad
  refine ⟨responseWord 0x1 .invalidConfiguration _ false, execConstruct_illegal hfail, ?_⟩
  obtain ⟨fopc, fzero, _, fst, fzero', fr⟩ := responseWord_fields 0x1 .invalidConfiguration
    { sizeBad := sizeBad s.params size, hcBad := hcBad s.params hashCount } false
  obtain ⟨fsize, fhc, frest⟩ := responseWord_info_bits 0x1 .invalidConfiguration
    { sizeBad := sizeBad s.params size, hcBad := hcBad s.params hashCount } false
  rw [fsize, fhc]
  exact ⟨fopc, fst, fr, Bool.toNat_eq_one, Bool.toNat_eq_one, frest, fzero, fzero'⟩

/-! ### A NOP anywhere in a run leaves the engine that the run without it leaves (40_construct.md R121) -/

/-- The active lanes of a running engine are slots of the address space (41_hash_pipeline.md R146; 20_memory.md R60). -/
theorem State.EngineInv.lane_lt_sizeMax {s : State} (h : s.EngineInv) (j : Nat) (h1 : 1 ≤ j) (hj : j ≤ s.hcNat) :
    (s.lane j).toNat < s.params.sizeMax :=
  (h.lane_lt j h1 hj).trans_le h.size_le

/-- From a running engine every run of words completes, and the engine runs on. -/
theorem State.EngineInv.runWords_next {s : State} (h : s.EngineInv) (ws : List Word) :
    ∃ t, runWords ws s = .next t ∧ t.EngineInv := by
  induction ws generalizing s with
  | nil => exact ⟨s, rfl, h⟩
  | cons w ws ih =>
    obtain ⟨u, hu⟩ := acceptWord_next h.lane_lt_sizeMax w
    obtain ⟨t, ht, hinv⟩ := ih (h.acceptWord hu)
    exact ⟨t, runWords_cons_next.mpr ⟨u, hu, ht⟩, hinv⟩

/-- A run of words does the same to states with the same engine. -/
theorem State.SameEngine.runWords {ws : List Word} {s s' t : State} (h : s.SameEngine s')
    (hrun : runWords ws s = .next t) : ∃ t', Machine.runWords ws s' = .next t' ∧ t.SameEngine t' := by
  induction ws generalizing s s' with
  | nil => cases hrun; exact ⟨s', rfl, h⟩
  | cons w ws ih =>
    obtain ⟨u, hu, hrest⟩ := runWords_cons_next.mp hrun
    obtain ⟨u', _, hu', hsame, _, _⟩ := h.acceptWord hu
    obtain ⟨t', ht', hsame'⟩ := ih hsame hrest
    exact ⟨t', runWords_cons_next.mpr ⟨u', hu', ht'⟩, hsame'⟩

/-- An accepted NOP leaves the engine as it is. -/
theorem acceptWord_nop_sameEngine (s : State) : ∃ t, acceptWord (encode .nop) s = .next t ∧ s.SameEngine t :=
  ⟨_, acceptWord_of_decode (decodeInvertsEncode .nop rfl) s, rfl, rfl, rfl, rfl, rfl⟩

/-- A run completes with a NOP inside it as without, and leaves the same engine. -/
theorem State.EngineInv.runWords_with_nop {s : State} (h : s.EngineInv) (ws vs : List Word) :
    ∃ t u, runWords (ws ++ encode .nop :: vs) s = .next t ∧ runWords (ws ++ vs) s = .next u ∧ u.SameEngine t := by
  obtain ⟨m, hm, hinv⟩ := h.runWords_next ws
  obtain ⟨u, hu, _⟩ := hinv.runWords_next vs
  obtain ⟨m', hnop, hsame⟩ := acceptWord_nop_sameEngine m
  obtain ⟨t, ht, hsame'⟩ := hsame.runWords hu
  exact ⟨t, u, runWords_append_next.mpr ⟨m, hm, runWords_cons_next.mpr ⟨m', hnop, ht⟩⟩,
    runWords_append_next.mpr ⟨m, hm, hu⟩, hsame'⟩

/-- Settles O42: the NOP after the first CHAR leaves the same engine, whether the run ends with the item's last CHAR or with
its INSERT. -/
theorem nopInsideItemChangesNoHash : Obligations.NopInsideItemChangesNoHash := by
  intro s a b hs _ _
  obtain ⟨t, u, ht, hu, hlanes⟩ := hs.runWords_with_nop [encode (.char a)] [encode (.char b)]
  obtain ⟨t', u', ht', hu', hinserted⟩ := hs.runWords_with_nop [encode (.char a)] [encode (.char b), encode .insert]
  exact ⟨t, u, t', u', ht, hu, hlanes.acc, ht', hu', hinserted.bits, hinserted.acc⟩

end Sys2Proof.Machine

namespace Sys2Proof.Machine

/-! ### The lanes hold the hashes of the current item (41_hash_pipeline.md R141, R144) -/

/-- The lanes of a running engine are built, so HASHCOUNT of them can be active. -/
theorem State.EngineInv.hcNat_le_acc_length {s : State} (h : s.EngineInv) : s.hcNat ≤ s.acc.length :=
  h.hc_le.trans_eq h.acc_length.symm

/-- The hashes are read from the rows SIZE, HASHCOUNT and ACC of R29. -/
theorem State.LanesHash.congr {s t : State} {codes : List Nat} (h : s.LanesHash codes) (hs : t.size = s.size)
    (hh : t.hashCount = s.hashCount) (ha : t.acc = s.acc) : t.LanesHash codes := by
  intro j h1 hj
  rw [State.hcNat_congr hh] at hj
  rw [State.lane_congr ha, State.sizeNat_congr hs]
  exact h j h1 hj

/-- Lanes that are 0 hold the hashes of the empty item. -/
theorem State.LanesHash.of_lanes_zero {s : State} (h : ∀ j, s.lane j = 0) : s.LanesHash [] := by
  intro j _ _
  rw [h j]
  rfl

/-- CHAR takes every active lane from the hash of the item to the hash of the item one code longer. -/
theorem State.LanesHash.feedCode {s : State} {codes : List Nat} (h : s.LanesHash codes) (hinv : s.EngineInv)
    (code : Nat) : (s.feedCode code).LanesHash (codes ++ [code]) := by
  intro j h1 hj
  rw [State.lane_feedCode_active hinv.hcNat_le_acc_length code h1 hj, h j h1 hj]
  exact (refHash_append_singleton codes code j s.sizeNat).symm

theorem itemAfter_char {w : Word} {code : Nat} (hd : decode w = .cmd (.char code)) (p : Params) (codes : List Nat) :
    itemAfter p codes w = codes ++ [code] := by
  simp only [itemAfter, hd]

/-- A CONSTRUCT that starts a filter ends the item. -/
theorem itemAfter_legal_construct {p : Params} {w : Word} {size hc : Nat} (hd : decode w = .cmd (.construct size hc))
    (h1 : sizeBad p size = false) (h2 : hcBad p hc = false) (codes : List Nat) : itemAfter p codes w = [] := by
  simp [itemAfter, hd, h1, h2]

/-- A rejected CONSTRUCT leaves the item. -/
theorem itemAfter_illegal_construct {p : Params} {w : Word} {size hc : Nat} (hd : decode w = .cmd (.construct size hc))
    (h : ¬ (sizeBad p size = false ∧ hcBad p hc = false)) (codes : List Nat) : itemAfter p codes w = codes := by
  simp only [itemAfter, hd]
  exact if_neg (by simpa using h)

/-- One accepted word takes lanes that hold the hashes of an item to the hashes of the item R141 has after it: CHAR feeds
the lanes, a new filter, INSERT and QUERY clear them, and every other word leaves them. -/
theorem State.LanesHash.acceptWord {w : Word} {s t : State} {codes : List Nat} (h : s.LanesHash codes)
    (hinv : s.EngineInv) (haccept : acceptWord w s = .next t) : t.LanesHash (itemAfter s.params codes w) := by
  obtain ⟨_, hd, rfl⟩ | ⟨hd, rfl⟩ | ⟨_, _, h1, h2, hd, rfl⟩ | ⟨_, _, hd, hbad, rfl⟩ | ⟨code, hd, rfl⟩ | ⟨hd, rfl⟩ |
    ⟨hd, rfl⟩ := acceptWord_cases haccept
  · simp only [itemAfter, hd]
    exact h.congr rfl rfl rfl
  · simp only [itemAfter, hd]
    exact h.congr rfl rfl rfl
  · rw [itemAfter_legal_construct hd h1 h2]
    exact .of_lanes_zero (State.lane_of_replicate rfl)
  · rw [itemAfter_illegal_construct hd hbad]
    exact h.congr rfl rfl rfl
  · rw [itemAfter_char hd]
    exact (h.feedCode hinv code).congr rfl rfl rfl
  · simp only [itemAfter, hd]
    exact .of_lanes_zero (State.lane_of_replicate rfl)
  · simp only [itemAfter, hd]
    exact .of_lanes_zero (State.lane_of_replicate rfl)

/-- A run of accepted words keeps the lanes at the hashes of the current item. -/
theorem State.LanesHash.runWords {ws : List Word} {s t : State} {codes : List Nat} (h : s.LanesHash codes)
    (hinv : s.EngineInv) (hrun : runWords ws s = .next t) : t.LanesHash (ws.foldl (itemAfter s.params) codes) := by
  induction ws generalizing s codes with
  | nil => cases hrun; exact h
  | cons w ws ih =>
    obtain ⟨u, hu, hrest⟩ := runWords_cons_next.mp hrun
    have hfinal := ih (h.acceptWord hinv hu) (hinv.acceptWord hu) hrest
    rwa [acceptWord_params hu] at hfinal

/-- Lanes that hold the hashes of an item are, as slot indices, the item's list HV (R142). -/
theorem State.LanesHash.indices_eq {s : State} {codes : List Nat} (h : s.LanesHash codes) :
    s.indices = hashValues codes s.hcNat s.sizeNat := by
  refine List.map_congr_left fun j hj => ?_
  obtain ⟨h1, hlt⟩ := List.mem_range'_1.mp hj
  exact h j h1 (by omega)

/-- The lanes hold the hashes of the empty item after reset. -/
theorem State.resetWith_lanesHash (p : Params) : (State.resetWith p).LanesHash [] :=
  .of_lanes_zero (State.lane_of_replicate rfl)

/-- Settles O33, by induction over the words: each keeps the lanes at the hashes of the current item, and the indices are
the lanes. -/
theorem lanesHashCurrentItem : Obligations.LanesHashCurrentItem := by
  refine ⟨State.resetWith_lanesHash, fun ws s t codes hinv h hrun => ?_⟩
  have hfinal := h.runWords hinv hrun
  exact ⟨hfinal, hfinal.indices_eq⟩

/-! ### CHAR (41_hash_pipeline.md R143) -/

/-- The words of CHAR: OPC 2 and RES 0, with the code in CODE. -/
theorem decode_eq_char_iff {w : Word} {code : Nat} :
    decode w = .cmd (.char code) ↔ field w 31 28 = 2 ∧ field w 27 21 = 0 ∧ code = field w 20 0 := by
  constructor
  · intro hd
    obtain ⟨_, _, hi⟩ | ⟨_, hi⟩ | ⟨hopc, hres, hi⟩ | ⟨_, _, hi⟩ | ⟨_, _, hi⟩ := decode_cmd_cases hd <;> cases hi
    exact ⟨hopc, hres, rfl⟩
  · rintro ⟨hopc, hres, rfl⟩
    exact decode_of_char hopc hres

/-- Reset's filter has SIZE 100 and HASHCOUNT 3, so an item's hashes are in its first three lanes. -/
theorem State.LanesHash.lane_of_defaults {s : State} {codes : List Nat} (h : s.LanesHash codes) (hsize : s.sizeNat = 100)
    (hhc : s.hcNat = 3) {j : Nat} (hj : 1 ≤ j ∧ j ≤ 3) {a : Lane} (ha : refHash codes j 100 = a.toNat) :
    s.lane j = a := by
  refine BitVec.eq_of_toNat_eq ?_
  rw [h j hj.1 (hhc ▸ hj.2), hsize, ha]

/-- Settles O8: a word decodes to CHAR by its fields, CHAR feeds the lanes and responds, and the example's lanes hold the
hashes of "a" and then of "ap". -/
theorem charAdvancesActiveLanes : Obligations.CharAdvancesActiveLanes := by
  refine ⟨fun w code => decode_eq_char_iff, fun w hopc hres => ?_, fun s code hinv => ?_, fun p => ?_⟩
  · have hd := decode_of_format_x hopc hres
    refine ⟨hd, fun s t h => ?_⟩
    rw [acceptWord_of_illegal hd] at h
    cases h
    rfl
  · exact ⟨_, execChar_eq code s, fun j h1 hj => State.lane_feedCode_active hinv.hcNat_le_acc_length code h1 hj,
      fun j hj => State.lane_feedCode_inactive s code hj, rfl⟩
  · have hinv := State.resetWith_engineInv p
    have hash₁ : (((State.resetWith p).feedCode 97).respond 0x2 .ok .none false).LanesHash [97] :=
      ((State.resetWith_lanesHash p).feedCode hinv 97).congr rfl rfl rfl
    have hash₂ := hash₁.feedCode ((hinv.feedCode 97).respond ..) 112
    exact ⟨_, _, execChar_eq 97 _, rfl,
      hash₁.lane_of_defaults rfl rfl (by decide) rfl, hash₁.lane_of_defaults rfl rfl (by decide) rfl,
      hash₁.lane_of_defaults rfl rfl (by decide) rfl, execChar_eq 112 _,
      hash₂.lane_of_defaults rfl rfl (by decide) rfl, hash₂.lane_of_defaults rfl rfl (by decide) rfl,
      hash₂.lane_of_defaults rfl rfl (by decide) rfl⟩

/-! ### An item's CHAR run (41_hash_pipeline.md R142) -/

/-- An accepted CHAR word, its frame said: it feeds the lanes, counts itself and responds. -/
theorem acceptWord_char {code : Nat} (hcode : code < 2 ^ 21) (s : State) :
    acceptWord (encode (.char code)) s =
      .next { s with acc := (s.feedCode code).acc, n := s.n + 1, rq := s.rq ++ [0x20000000#32] } := by
  rw [acceptWord_of_decode (decodeInvertsEncode _ (Instr.wellFormed_char.mpr hcode)), execChar_eq]
  rfl

/-- A CHAR run completes from any state; it writes the lanes, counts its words and responds to each. -/
theorem runWords_itemWords {codes : List Nat} (hcodes : ∀ c ∈ codes, c < 2 ^ 21) (s : State) :
    ∃ acc, runWords (itemWords codes) s = .next { s with
      acc := acc
      n := s.n + codes.length
      rq := s.rq ++ List.replicate codes.length 0x20000000#32 } := by
  induction codes generalizing s with
  | nil => exact ⟨s.acc, by simp [itemWords]⟩
  | cons c codes ih =>
    obtain ⟨hc, hrest⟩ := List.forall_mem_cons.mp hcodes
    obtain ⟨acc, hrun⟩ := ih hrest { s with acc := (s.feedCode c).acc, n := s.n + 1, rq := s.rq ++ [0x20000000#32] }
    refine ⟨acc, runWords_cons_next.mpr ⟨_, acceptWord_char hc s, hrun.trans ?_⟩⟩
    simp only [List.length_cons, List.replicate_succ, List.append_assoc, List.singleton_append]
    rw [Nat.add_right_comm, Nat.add_assoc]

/-- The CHAR words of an item extend the current item by its codes (R141). -/
theorem foldl_itemAfter_itemWords (p : Params) {codes : List Nat} (hcodes : ∀ c ∈ codes, c < 2 ^ 21) (item : List Nat) :
    (itemWords codes).foldl (itemAfter p) item = item ++ codes := by
  induction codes generalizing item with
  | nil => simp [itemWords]
  | cons c codes ih =>
    obtain ⟨hc, hrest⟩ := List.forall_mem_cons.mp hcodes
    have hword : itemAfter p item (encode (.char c)) = item ++ [c] :=
      itemAfter_char (decodeInvertsEncode _ (Instr.wellFormed_char.mpr hc)) p item
    calc (itemWords (c :: codes)).foldl (itemAfter p) item
        = (itemWords codes).foldl (itemAfter p) (item ++ [c]) := by rw [← hword]; rfl
      _ = item ++ c :: codes := by rw [ih hrest, List.append_assoc, List.singleton_append]

/-- Settles O34: at a boundary the current item is empty, so after the run it is the codes, whose hashes the lanes then
hold. -/
theorem itemRunGivesHashValues : Obligations.ItemRunGivesHashValues := by
  intro s codes hinv hboundary hcodes
  obtain ⟨acc, hrun⟩ := runWords_itemWords hcodes s
  refine ⟨_, hrun, ?_, rfl⟩
  have hhash := (State.LanesHash.of_lanes_zero (State.AtBoundary_lane hboundary)).runWords hinv hrun
  rw [foldl_itemAfter_itemWords s.params hcodes, List.nil_append] at hhash
  exact hhash.indices_eq

/-! ### Bounds and closed forms of the hash (41_hash_pipeline.md R146 to R152) -/

/-- The datapath's bound is largest at the largest parameters of 00_scope.md R7. -/
theorem datapath_le (p : Params) : (p.sizeMax - 1) * p.hcMax + 2 ^ 21 - 1 ≤ 269483521 := by
  have hsize : p.sizeMax - 1 ≤ 1048574 := Nat.sub_le_sub_right p.sizeMax_le 1
  have hprod : (p.sizeMax - 1) * p.hcMax ≤ 1048574 * 255 := Nat.mul_le_mul hsize p.hcMax_le
  omega

/-- Settles O35: the lane is at most SIZE_MAX - 1 and its seed at most HC_MAX, so their product is bounded. -/
theorem laneUpdateFitsDatapath : Obligations.LaneUpdateFitsDatapath := by
  intro s j code hinv h1 hj hcode
  have hlane : (s.lane j).toNat ≤ s.params.sizeMax - 1 := Nat.le_sub_one_of_lt (hinv.lane_lt_sizeMax j h1 hj)
  have hprod : (s.lane j).toNat * j ≤ (s.params.sizeMax - 1) * s.params.hcMax :=
    Nat.mul_le_mul hlane (hj.trans hinv.hc_le)
  exact ⟨hinv.lane_lt j h1 hj, by omega, datapath_le s.params, by decide⟩

/-- Lane 1 only adds, so the modulo after every code may be left to the end (R149). -/
theorem refHash_one (codes : List Nat) (size : Nat) : refHash codes 1 size = codes.sum % size := by
  induction codes using List.reverseRecOn with
  | nil => simp
  | append_singleton codes c ih =>
    rw [refHash_append_singleton, ih, laneStep, Nat.mul_one, Nat.mod_add_mod, List.sum_append, List.sum_singleton]

/-- Settles O36: a sum does not depend on the order of its terms. -/
theorem seedOneHashIsSum : Obligations.SeedOneHashIsSum := by
  refine ⟨fun codes size _ => refHash_one codes size, fun codes codes' size _ hperm => ?_⟩
  rw [refHash_one, refHash_one, hperm.sum_eq]

/-- Settles O37: the fold's equations are R140's, and with SIZE 1 an active lane is below 1 and the others are 0. -/
theorem hashCornerCases : Obligations.HashCornerCases := by
  refine ⟨refHash_nil, refHash_append_singleton, fun c seed size => ?_, fun s j hinv hsize => ?_⟩
  · rw [← List.nil_append [c], refHash_append_singleton, refHash_nil, laneStep, Nat.zero_mul, Nat.zero_add]
  · by_cases hactive : 1 ≤ j ∧ j ≤ s.hcNat
    · have hlt := hinv.lane_lt j hactive.1 hactive.2
      rw [hsize] at hlt
      exact BitVec.eq_of_toNat_eq (Nat.lt_one_iff.mp hlt)
    · obtain rfl | hj : j = 0 ∨ s.hcNat < j := by omega
      · exact State.lane_zero s
      · exact hinv.lane_inactive j hj

end Sys2Proof.Machine

namespace Sys2Proof.Machine

/-! ### INSERT and QUERY as meanings (42_bitarray.md R161 to R170) -/

/-- What INSERT leaves in the slots: each of the lanes' slots reads 1, and every other slot as before. -/
theorem State.memRead_inserted (s : State) (i : Nat) :
    ((s.setSlots s.indices).clearLanes.respond 0x3 .ok .none false).memRead i =
      if i ∈ s.indices then 1 else s.memRead i :=
  State.memRead_setSlots s s.indices i

/-- Settles O9: INSERT's writes are at the lanes' indices, and in a running engine these are below SIZE. -/
theorem insertSetsLaneSlots : Obligations.InsertSetsLaneSlots := by
  refine ⟨fun w => decode_eq_cmd_iff rfl, fun w hopc hres => decode_of_format_z (by simp [hopc]) hres,
    fun s hlanes => ?_, fun s t hinv hx i => ?_⟩
  · refine ⟨_, execInsert_next (State.missingSlot_none hlanes), fun j h1 hj => ?_, fun i hi => ?_,
      State.lane_of_replicate rfl, ?_⟩
    · rw [State.memRead_inserted, if_pos (State.mem_indices.mpr ⟨j, h1, hj, rfl⟩)]
    · have hmem : i ∉ s.indices := fun hmem => by
        obtain ⟨j, h1, hj, hlane⟩ := State.mem_indices.mp hmem
        exact hi j h1 hj hlane
      rw [State.memRead_inserted, if_neg hmem]
    · rw [State.setSlots_eq]
      rfl
  · rw [execInsert_next (State.missingSlot_none hinv.lane_lt_sizeMax)] at hx
    cases hx
    rw [State.memRead_inserted]
    by_cases hmem : i ∈ s.indices
    · rw [if_pos hmem]
      exact ⟨fun _ => ⟨hinv.indices_lt i hmem, rfl⟩, fun _ => rfl⟩
    · rw [if_neg hmem]
      exact ⟨fun hne => absurd rfl hne, id⟩

/-- One slot that is not 1 makes the AND 0 (R169). -/
theorem State.allSet_eq_false {s : State} {is : List Nat} {i : Nat} (hi : i ∈ is) (h : s.memRead i ≠ 1) :
    s.allSet is = false :=
  Bool.eq_false_iff.mpr fun hall => h (State.allSet_iff.mp hall i hi)

/-- Settles O10: the lanes' indices are the tested slots, so RESULT is 1 when all of them are 1 and 0 when one is not. -/
theorem queryTestsLaneSlots : Obligations.QueryTestsLaneSlots := by
  refine ⟨fun w => decode_eq_cmd_iff rfl, fun w hopc hres => decode_of_format_z (by simp [hopc]) hres,
    fun s hlanes => ⟨_, execQuery_next (State.missingSlot_none hlanes), fun hall => ?_, ?_,
      State.lane_of_replicate rfl⟩⟩
  · have hset : s.allSet s.indices = true := State.allSet_iff.mpr fun i hi => by
      obtain ⟨j, h1, hj, rfl⟩ := State.mem_indices.mp hi
      exact hall j h1 hj
    rw [hset]
    rfl
  · rintro ⟨j, h1, hj, hne⟩
    rw [State.allSet_eq_false (State.mem_indices.mpr ⟨j, h1, hj, rfl⟩) hne]
    rfl

/-! ### Runs of accepted words -/

/-- The induction over a run: what each of its words keeps holds after it. -/
theorem runWords_keeps {P : State → Prop} {ws : List Word} {s t : State}
    (accept : ∀ w ∈ ws, ∀ u v, acceptWord w u = .next v → P u → P v) (hrun : runWords ws s = .next t) (hs : P s) :
    P t := by
  induction ws generalizing s with
  | nil => cases hrun; exact hs
  | cons w ws ih =>
    obtain ⟨u, hu, hrest⟩ := runWords_cons_next.mp hrun
    obtain ⟨hfirst, hlater⟩ := List.forall_mem_cons.mp accept
    exact ih hlater hrest (hfirst s u hu hs)

theorem State.EngineInv.runWords {ws : List Word} {s t : State} (h : s.EngineInv) (hrun : runWords ws s = .next t) :
    t.EngineInv :=
  runWords_keeps (fun _ _ _ _ hu hinv => hinv.acceptWord hu) hrun h

/-- `t` is a later state of the filter lifetime that `s` is in (10_state.md R35, R39): the configuration is the same, and
the slots that are 1 still are. -/
structure State.LaterInLifetime (s t : State) : Prop where
  params    : t.params = s.params
  size      : t.size = s.size
  hashCount : t.hashCount = s.hashCount
  set_slots : ∀ i, s.memRead i = 1 → t.memRead i = 1

theorem State.LaterInLifetime.refl (s : State) : s.LaterInLifetime s := ⟨rfl, rfl, rfl, fun _ => id⟩

theorem State.LaterInLifetime.acceptWord {w : Word} {s t u : State} (h : s.LaterInLifetime t)
    (hw : startsLifetime s.params w = false) (haccept : acceptWord w t = .next u) : s.LaterInLifetime u := by
  rw [← h.params] at hw
  obtain ⟨hsize, hhc, _⟩ := acceptWord_writes_in_lifetime haccept hw
  exact ⟨(acceptWord_params haccept).trans h.params, hsize.trans h.size, hhc.trans h.hashCount,
    fun i hi => acceptWord_keeps_set_slot haccept hw (h.set_slots i hi)⟩

/-- A run without a successful CONSTRUCT stays in the lifetime. -/
theorem runWords_laterInLifetime {ws : List Word} {s t : State} (hws : ∀ w ∈ ws, startsLifetime s.params w = false)
    (hrun : runWords ws s = .next t) : s.LaterInLifetime t :=
  runWords_keeps (fun w hw _ _ haccept h => h.acceptWord (hws w hw) haccept) hrun (.refl s)

/-! ### A query of an item (42_bitarray.md R168 to R170) -/

theorem State.allSet_congr {s t : State} (hb : t.bits = s.bits) (is : List Nat) : t.allSet is = s.allSet is := by
  simp only [State.allSet, State.memRead_congr hb]

/-- The responses to the words of an item's query: one for each CHAR, and the QUERY's with the result. -/
def queryAnswers (codes : List Nat) (result : Bool) : List Word :=
  List.replicate codes.length 0x20000000#32 ++ [responseWord 0x4 .ok .none result]

/-- From a running engine an item's query completes; its result is the AND of the slots that the lanes address after the
item's CHARs. -/
theorem State.EngineInv.runWords_queryWords {s : State} (h : s.EngineInv) {codes : List Nat}
    (hcodes : ∀ c ∈ codes, c < 2 ^ 21) :
    ∃ m u, Machine.runWords (itemWords codes) s = .next m ∧ Machine.runWords (queryWords codes) s = .next u ∧
      u.rq = s.rq ++ queryAnswers codes (s.allSet m.indices) := by
  obtain ⟨acc, hitem⟩ := runWords_itemWords hcodes s
  have hmissing := State.missingSlot_none (h.runWords hitem).countCommand.lane_lt_sizeMax
  have hquery := (acceptWord_of_decode (decodeInvertsEncode .query rfl) _).trans (execQuery_next hmissing)
  refine ⟨_, _, hitem, runWords_append_next.mpr ⟨_, hitem, runWords_cons_next.mpr ⟨_, hquery, rfl⟩⟩, ?_⟩
  exact List.append_assoc ..

/-- From a boundary the slots that the query tests are the item's hash values. -/
theorem State.EngineInv.query_result {s : State} (h : s.EngineInv) (hboundary : s.AtBoundary) {codes : List Nat}
    (hcodes : ∀ c ∈ codes, c < 2 ^ 21) :
    ∃ u, Machine.runWords (queryWords codes) s = .next u ∧
      u.rq = s.rq ++ queryAnswers codes (s.allSet (hashValues codes s.hcNat s.sizeNat)) := by
  obtain ⟨m, u, hm, hu, hrq⟩ := h.runWords_queryWords hcodes
  obtain ⟨m', hm', hindices, _⟩ := itemRunGivesHashValues s codes h hboundary hcodes
  cases hm.symm.trans hm'
  exact ⟨u, hu, hindices ▸ hrq⟩

/-! ### The inserts of items (42_bitarray.md R161 to R163) -/

/-- `t` is a running engine at a boundary whose filter is that of `s` with the slots of a list set, and no others. -/
structure State.SetsSlots (s t : State) (is : List Nat) : Prop where
  params      : t.params = s.params
  size        : t.size = s.size
  hashCount   : t.hashCount = s.hashCount
  engine      : t.EngineInv
  boundary    : t.AtBoundary
  memRead_iff : ∀ i, t.memRead i = 1 ↔ s.memRead i = 1 ∨ i ∈ is

theorem State.SetsSlots.refl {s : State} (h : s.EngineInv) (hboundary : s.AtBoundary) : s.SetsSlots s [] :=
  ⟨rfl, rfl, rfl, h, hboundary, by simp⟩

theorem State.SetsSlots.trans {s t u : State} {is js : List Nat} (h : s.SetsSlots t is) (h' : t.SetsSlots u js) :
    s.SetsSlots u (is ++ js) where
  params := h'.params.trans h.params
  size := h'.size.trans h.size
  hashCount := h'.hashCount.trans h.hashCount
  engine := h'.engine
  boundary := h'.boundary
  memRead_iff i := by rw [h'.memRead_iff, h.memRead_iff, List.mem_append, or_assoc]

/-- The hash values of an item depend on the configuration alone, which inserts keep. -/
theorem State.SetsSlots.hashValues_eq {s t : State} {is : List Nat} (h : s.SetsSlots t is) (codes : List Nat) :
    hashValues codes t.hcNat t.sizeNat = hashValues codes s.hcNat s.sizeNat := by
  rw [State.hcNat_congr h.hashCount, State.sizeNat_congr h.size]

/-- An accepted INSERT sets the slots that the lanes address. -/
theorem State.EngineInv.acceptWord_insert {s : State} (h : s.EngineInv) :
    ∃ t, Machine.acceptWord (encode .insert) s = .next t ∧ s.SetsSlots t s.indices := by
  have hmissing := State.missingSlot_none h.countCommand.lane_lt_sizeMax
  have haccept := (acceptWord_of_decode (decodeInvertsEncode .insert rfl) s).trans (execInsert_next hmissing)
  refine ⟨_, haccept, acceptWord_params haccept, by simp, by simp, h.acceptWord haccept, ?_, fun i => ?_⟩
  · intro a ha
    exact List.eq_of_mem_replicate ha
  · rw [State.memRead_inserted]
    exact ite_eq_left_iff.trans or_iff_not_imp_right.symm

/-- From a boundary an item's insert completes, and sets the slots of its hash values. -/
theorem State.EngineInv.runWords_insertWords {s : State} (h : s.EngineInv) (hboundary : s.AtBoundary)
    {codes : List Nat} (hcodes : ∀ c ∈ codes, c < 2 ^ 21) :
    ∃ t, Machine.runWords (insertWords codes) s = .next t ∧
      s.SetsSlots t (hashValues codes s.hcNat s.sizeNat) := by
  obtain ⟨m, hitem, hindices, hframe⟩ := itemRunGivesHashValues s codes h hboundary hcodes
  obtain ⟨t, ht, hset⟩ := (h.runWords hitem).acceptWord_insert
  refine ⟨t, runWords_append_next.mpr ⟨m, hitem, runWords_cons_next.mpr ⟨t, ht, rfl⟩⟩, ?_⟩
  rw [hindices, hframe] at hset
  exact ⟨hset.params, hset.size, hset.hashCount, hset.engine, hset.boundary, hset.memRead_iff⟩

/-- From a boundary the inserts of a list of items complete, and set the union of the items' slots. -/
theorem State.EngineInv.runWords_inserts {s : State} (h : s.EngineInv) (hboundary : s.AtBoundary)
    {items : List (List Nat)} (hitems : ∀ codes ∈ items, ∀ c ∈ codes, c < 2 ^ 21) :
    ∃ t, Machine.runWords (items.flatMap insertWords) s = .next t ∧
      s.SetsSlots t (items.flatMap fun codes => hashValues codes s.hcNat s.sizeNat) := by
  induction items generalizing s with
  | nil => exact ⟨s, rfl, .refl h hboundary⟩
  | cons codes items ih =>
    obtain ⟨hcodes, hrest⟩ := List.forall_mem_cons.mp hitems
    obtain ⟨t, ht, hset⟩ := h.runWords_insertWords hboundary hcodes
    obtain ⟨u, hu, hset'⟩ := ih hset.engine hset.boundary hrest
    simp only [hset.hashValues_eq] at hset'
    exact ⟨u, runWords_append_next.mpr ⟨t, ht, hu⟩, hset.trans hset'⟩

/-- The lanes of a running engine at a boundary are one list. -/
theorem State.EngineInv.acc_of_boundary {s : State} (h : s.EngineInv) (hboundary : s.AtBoundary) :
    s.acc = List.replicate s.params.hcMax 0 :=
  List.eq_replicate_iff.mpr ⟨h.acc_length, hboundary⟩

theorem bit_eq_of_one_iff {v v' : BitVec 1} (h : v = 1 ↔ v' = 1) : v = v' := by
  revert v v'
  decide

/-- The same slots set, in whatever order and however often, leave the same engine: the bit arrays are canonical and read
alike, and both engines are at a boundary. -/
theorem State.SetsSlots.sameEngine {s t t' : State} {is is' : List Nat} (h : s.SetsSlots t is)
    (h' : s.SetsSlots t' is') (hmem : ∀ i, i ∈ is ↔ i ∈ is') : t.SameEngine t' where
  params := h'.params.trans h.params.symm
  size := h'.size.trans h.size.symm
  hashCount := h'.hashCount.trans h.hashCount.symm
  acc := by
    rw [h.engine.acc_of_boundary h.boundary, h'.engine.acc_of_boundary h'.boundary, h.params, h'.params]
  bits := by
    refine Memory.ext_read h'.engine.bits_wf h.engine.bits_wf fun i => bit_eq_of_one_iff ?_
    exact (h'.memRead_iff i).trans ((or_congr_right (hmem i).symm).trans (h.memRead_iff i).symm)

/-! ### The laws of the filter (42_bitarray.md R176 to R181) -/

/-- Settles O38: the insert sets the slots of the item's hash values, the rest of the run keeps them set and the
configuration as it is, so the query tests slots that are all 1. -/
theorem noFalseNegatives : Obligations.NoFalseNegatives := by
  intro s t codes ws hinv hboundary hcodes hws hrun hboundary'
  obtain ⟨m, hm, hset⟩ := hinv.runWords_insertWords hboundary hcodes
  obtain ⟨m', hm', hrest⟩ := runWords_append_next.mp hrun
  cases hm.symm.trans hm'
  rw [← hset.params] at hws
  have hlater := runWords_laterInLifetime hws hrest
  have hall : t.allSet (hashValues codes t.hcNat t.sizeNat) = true := State.allSet_iff.mpr fun i hi => by
    rw [State.hcNat_congr hlater.hashCount, State.sizeNat_congr hlater.size, hset.hashValues_eq] at hi
    exact hlater.set_slots i ((hset.memRead_iff i).mpr (.inr hi))
  obtain ⟨u, hu, hrq⟩ := (hset.engine.runWords hrest).query_result hboundary' hcodes
  refine ⟨u, hu, ?_⟩
  rw [hrq, hall, List.append_assoc]
  rfl

/-- Settles O41: either order sets the union of the items' slots, hence leaves the same engine, and a query's answers are
read from the engine. -/
theorem insertOrderIsIrrelevant : Obligations.InsertOrderIsIrrelevant := by
  intro s items items' hinv hboundary hitems hperm
  have hitems' : ∀ codes ∈ items', ∀ c ∈ codes, c < 2 ^ 21 := fun codes hmem => hitems codes (hperm.mem_iff.mpr hmem)
  obtain ⟨t, ht, hset⟩ := hinv.runWords_inserts hboundary hitems
  obtain ⟨t', ht', hset'⟩ := hinv.runWords_inserts hboundary hitems'
  have hsame : t.SameEngine t' := hset.sameEngine hset' fun i => (hperm.flatMap_right _).mem_iff
  refine ⟨t, t', ht, ht', hsame.bits, hsame.acc, hsame.size, hsame.hashCount, fun i => ?_, fun codes hcodes => ?_⟩
  · rw [hset.memRead_iff, List.mem_flatMap]
  · obtain ⟨u, hu, hrq⟩ := hset.engine.query_result hset.boundary hcodes
    obtain ⟨u', hu', hrq'⟩ := hset'.engine.query_result hset'.boundary hcodes
    rw [hset'.hashValues_eq, ← hset.hashValues_eq, State.allSet_congr hsame.bits] at hrq'
    exact ⟨u, u', _, hu, hu', hrq, hrq'⟩

/-- Settles O40: the second insert sets the slots that the first has set. -/
theorem insertIsIdempotent : Obligations.InsertIsIdempotent := by
  intro s codes hinv hboundary hcodes
  obtain ⟨t, ht, hset⟩ := hinv.runWords_insertWords hboundary hcodes
  obtain ⟨u, hu, hset'⟩ := hset.engine.runWords_insertWords hset.boundary hcodes
  rw [hset.hashValues_eq] at hset'
  have hsame : t.SameEngine u := hset.sameEngine (hset.trans hset') fun i => by rw [List.mem_append, or_self]
  exact ⟨t, u, ht, runWords_append_next.mpr ⟨t, ht, hu⟩, hsame.bits, hsame.acc⟩

/-! ### A filter with no slot set (42_bitarray.md R178) -/

theorem startsLifetime_iff {p : Params} {w : Word} :
    startsLifetime p w = true ↔
      ∃ size hc, decode w = .cmd (.construct size hc) ∧ sizeBad p size = false ∧ hcBad p hc = false := by
  constructor
  · intro h
    unfold startsLifetime at h
    split at h
    · rename_i size hc hd
      exact ⟨size, hc, hd, by simpa using h⟩
    · cases h
  · rintro ⟨size, hc, hd, h1, h2⟩
    exact startsLifetime_of_legal_construct hd h1 h2

/-- The word that starts a lifetime clears every slot (40_construct.md R124). -/
theorem acceptWord_clears_slots {w : Word} {s t : State} (hw : startsLifetime s.params w = true)
    (h : acceptWord w s = .next t) (i : Nat) : t.memRead i = 0 := by
  obtain ⟨size, hc, hd, h1, h2⟩ := startsLifetime_iff.mp hw
  rw [acceptWord_of_decode hd, execConstruct_legal (s := s.countCommand) h1 h2] at h
  cases h
  exact Memory.read_nil i

/-- A filter with no slot set stays one under every word but INSERT: a successful CONSTRUCT clears the slots, and within
a lifetime only INSERT writes them. -/
theorem acceptWord_keeps_empty_filter {w : Word} {s t : State} (hw : decode w ≠ .cmd .insert)
    (h : acceptWord w s = .next t) (hs : ∀ i, s.memRead i = 0) (i : Nat) : t.memRead i = 0 := by
  cases hlife : startsLifetime s.params w with
  | true => exact acceptWord_clears_slots hlife h i
  | false =>
    obtain ⟨_, _, hinsert, _⟩ := onlyNamedCommandsWrite w s t h hlife
    have hbits : t.bits = s.bits := of_not_not (mt hinsert hw)
    exact (State.memRead_congr hbits i).trans (hs i)

/-- Settles O39: no word of the run sets a slot, HASHCOUNT is at least 1, and so the query tests a slot that is 0. -/
theorem emptyFilterAnswersFalse : Obligations.EmptyFilterAnswersFalse := by
  refine ⟨fun p i => Memory.read_nil i, fun w s t i hw h => acceptWord_clears_slots hw h i,
    fun s t codes ws hinv hempty hcodes hws hrun => ?_⟩
  have hempty' : ∀ i, t.memRead i = 0 :=
    runWords_keeps (P := fun u => ∀ i, u.memRead i = 0)
      (fun w hw _ _ haccept hu => acceptWord_keeps_empty_filter (hws w hw) haccept hu) hrun hempty
  obtain ⟨m, u, _, hu, hrq⟩ := (hinv.runWords hrun).runWords_queryWords hcodes
  have hresult : t.allSet m.indices = false :=
    State.allSet_eq_false (State.mem_indices.mpr ⟨1, le_rfl, m.hcNat_pos, rfl⟩) (by simp [hempty'])
  refine ⟨u, hu, ?_⟩
  rw [hrq, hresult, List.append_assoc]
  rfl

end Sys2Proof.Machine

namespace Sys2Proof.Machine

/-! ### What an accepted word answers, by the STATUS of its response (60_exceptions.md R201 to R206) -/

/-- Where RQ was `rq` before the response, the word at its back is that response. -/
theorem State.respond_rq_inj {s : State} {rq : List Word} {r : Word} {opc : BitVec 4} {st : Status} {info : Info}
    {result : Bool} (hs : s.rq = rq) (h : (s.respond opc st info result).rq = rq ++ [r]) :
    r = responseWord opc st info result := by
  rw [State.respond_rq, hs] at h
  exact (List.singleton_inj.mp (List.append_cancel_left h)).symm

/-- Success has STATUS 0. -/
theorem State.respond_ok_status {s : State} {rq : List Word} {r : Word} {opc : BitVec 4} {result : Bool}
    (hs : s.rq = rq) (h : (s.respond opc .ok .none result).rq = rq ++ [r]) : field r 7 4 = 0 := by
  obtain rfl := State.respond_rq_inj hs h
  obtain ⟨_, _, _, fst, _, _⟩ := responseWord_fields opc .ok .none result
  exact fst

/-- R203: raising an error counts the command and appends the response, which has the error's STATUS and RESULT 0. -/
theorem State.raise_writes_response {s : State} {r : Word} {opc : BitVec 4} {e : Err} {info : Info}
    (h : (s.countCommand.raise opc e info).rq = s.rq ++ [r]) :
    s.countCommand.raise opc e info = { s with n := s.n + 1, rq := s.rq ++ [r] } ∧
    field r 7 4 = e.status.code ∧ field r 0 0 = 0 := by
  obtain rfl := State.respond_rq_inj rfl h
  obtain ⟨_, _, _, fst, _, fr⟩ := responseWord_fields opc e.status info false
  exact ⟨rfl, fst, fr⟩

/-- The STATUS of the response says which of three things an accepted word was: a command that succeeds, a CONSTRUCT with
an operand out of range, or a word the decoder rejects. The last two write no state. -/
theorem acceptWord_status_cases {w : Word} {s t : State} {r : Word} (h : acceptWord w s = .next t)
    (hrq : t.rq = s.rq ++ [r]) :
    ((∃ i, decode w = .cmd i) ∧ field r 7 4 = 0) ∨
    ((∃ size hashCount, decode w = .cmd (.construct size hashCount)) ∧
      t = { s with n := s.n + 1, rq := s.rq ++ [r] } ∧ field r 7 4 = 1 ∧ field r 0 0 = 0) ∨
    ((∃ why, decode w = .illegal why) ∧
      t = { s with n := s.n + 1, rq := s.rq ++ [r] } ∧ field r 7 4 = 2 ∧ field r 0 0 = 0) := by
  obtain ⟨why, hd, rfl⟩ | ⟨hd, rfl⟩ | ⟨_, _, _, _, hd, rfl⟩ | ⟨size, hc, hd, _, rfl⟩ | ⟨_, hd, rfl⟩ | ⟨hd, rfl⟩ |
    ⟨hd, rfl⟩ := acceptWord_cases h
  · exact .inr (.inr ⟨⟨why, hd⟩, State.raise_writes_response hrq⟩)
  · exact .inl ⟨⟨_, hd⟩, State.respond_ok_status rfl hrq⟩
  · exact .inl ⟨⟨_, hd⟩, State.respond_ok_status rfl hrq⟩
  · exact .inr (.inl ⟨⟨size, hc, hd⟩, State.raise_writes_response hrq⟩)
  · exact .inl ⟨⟨_, hd⟩, State.respond_ok_status rfl hrq⟩
  · exact .inl ⟨⟨_, hd⟩, State.respond_ok_status (by simp) hrq⟩
  · exact .inl ⟨⟨_, hd⟩, State.respond_ok_status rfl hrq⟩

/-- Settles O14: a STATUS other than 0 rules out success. -/
theorem errorsWriteNothing : Obligations.ErrorsWriteNothing := by
  intro w s t r h hrq hne
  obtain ⟨_, fst⟩ | ⟨hd, ht, fst, fr⟩ | ⟨hd, ht, fst, fr⟩ := acceptWord_status_cases h hrq
  · exact absurd fst hne
  · exact ⟨ht, fr, .inl ⟨fst, hd⟩⟩
  · exact ⟨ht, fr, .inr ⟨fst, hd⟩⟩

/-- An ILLEGAL_COMMAND response as a number (R104): STATUS 2 is bit 5, and RESULT is 0. -/
theorem responseWord_illegalCommand (opc : BitVec 4) (info : Info) :
    responseWord opc .illegalCommand info false =
      BitVec.ofNat 32 (opc.toNat * 2 ^ 28 + (info.code * 2 ^ 8 + 0x20)) := by
  rw [responseWord, Nat.add_assoc, Nat.add_assoc]
  rfl

/-- The answer to a rejected word, written as a number: OPC of the word, the INFO bit of the reason, and STATUS 2. -/
theorem acceptWord_illegal_number {w : Word} {why : Illegal} (hd : decode w = .illegal why) (s : State) :
    acceptWord w s = .next { s with
      n := s.n + 1
      rq := s.rq ++ [BitVec.ofNat 32 (field w 31 28 * 2 ^ 28 + ((illegalInfo why).code * 2 ^ 8 + 0x20))] } := by
  rw [acceptWord_of_illegal hd, ← opcOf_toNat w, ← responseWord_illegalCommand]
  rfl

/-- Settles O4: the decoder gives each kind of word its reason, and only a word that it rejects answers STATUS 2. -/
theorem illegalWordsRaiseIllegalCommand : Obligations.IllegalWordsRaiseIllegalCommand := by
  intro w s
  refine ⟨fun hopc => ?_, ?_, fun i t r hd h hrq hst => ?_⟩
  · exact acceptWord_illegal_number (decode_of_opc_reserved hopc) s
  · rintro (⟨hopc, hres⟩ | ⟨hopc, hres⟩)
    · exact acceptWord_illegal_number (decode_of_format_z hopc hres) s
    · exact acceptWord_illegal_number (decode_of_format_x hopc hres) s
  · obtain ⟨_, fst⟩ | ⟨_, _, fst, _⟩ | ⟨⟨why, hd'⟩, _⟩ := acceptWord_status_cases h hrq
    · rw [fst] at hst; cases hst
    · rw [fst] at hst; cases hst
    · rw [hd] at hd'; cases hd'

/-! ### The step: it answers every word, and from a running engine it never stops (60_exceptions.md R202, R217) -/

/-- Settles O17: the step raises the error at the state after the response handshake. -/
theorem stepAnswersIllegalWord : Obligations.StepAnswersIllegalWord := by
  intro s e rest why hp hr hv hroom hd
  obtain ⟨fopc, _, finfo, fst, _, fr⟩ :=
    responseWord_fields (opcOf e.cmdData) .illegalCommand (illegalInfo why) false
  refine ⟨_, ?_, fopc.trans (opcOf_toNat _), fst, fr, ?_⟩
  · rw [step_accept hp hr hv hroom, acceptWord_of_illegal hd, State.responseHandshake_eq]
    rfl
  · cases why <;> exact finfo

/-- Settles O25: only an accepted word could stop the step, and it finds the lanes inside the address space, since the
handshake that comes before it keeps the invariant. -/
theorem runningEngineNeverStops : Obligations.RunningEngineNeverStops := by
  intro s hs
  cases hp : s.port with
  | nil => exact ⟨s, step_idle hp⟩
  | cons e rest =>
    cases hr : e.rst with
    | true => exact ⟨_, step_reset hp hr⟩
    | false =>
      by_cases hno : e.cmdValid = false ∨ s.params.rspDepth ≤ s.rq.length
      · exact ⟨_, step_no_accept hp hr hno⟩
      · obtain ⟨hv, hroom⟩ := not_or.mp hno
        rw [step_accept hp hr (Bool.eq_true_of_not_eq_false hv) (Nat.lt_of_not_le hroom)]
        have hinv := (hs.withPort rest).responseHandshake e.rspReady
        exact acceptWord_next hinv.engine.lane_lt_sizeMax e.cmdData

end Sys2Proof.Machine

namespace Sys2Proof.Machine

/-! ### The reset (70_reset_and_hazards.md R230 to R232) -/

/-- Settles O20: the step is the reset whatever else the edge drives, and both outputs are gated by `rst`. -/
theorem resetEdgeGivesResetState : Obligations.ResetEdgeGivesResetState :=
  ⟨fun _ _ _ hp hr => step_reset hp hr, fun _ => ⟨rfl, rfl⟩⟩

/-- Settles O21: the lanes are zeros and no slot is listed; the rest is written in the reset state. -/
theorem resetStateValues : Obligations.ResetStateValues := fun _ =>
  ⟨rfl, rfl, fun i => Memory.read_nil i, fun j => State.lane_of_replicate rfl j, rfl, rfl⟩

/-! ### A host that takes no response (70_reset_and_hazards.md R243) -/

/-- With RQ full and no response taken, a step uses up its edge and does nothing else. -/
theorem step_full_untaken {s : State} (hreset : s.NoReset) (hrdy : ∀ e ∈ s.port, e.rspReady = false)
    (hfull : s.rq.length = s.params.rspDepth) :
    step s = .next { s with port := s.port.tail } ∧ s.acceptedWord = none := by
  cases hp : s.port with
  | nil =>
    have hsame : { s with port := [].tail } = s := by rw [List.tail_nil, ← hp]
    exact ⟨(step_idle hp).trans (congrArg _ hsame.symm), by simp [State.acceptedWord, hp]⟩
  | cons e rest =>
    have he : e ∈ s.port := by simp [hp]
    refine ⟨?_, by simp [State.acceptedWord, State.cmdReady, hp, hfull]⟩
    rw [step_no_accept hp (hreset e he) (.inr hfull.ge), hrdy e he, State.responseHandshake_false]
    rfl

/-- Settles O30, by induction on the steps: each leaves RQ full and the host as it is. -/
theorem undrainedResponsesStopAcceptance : Obligations.UndrainedResponsesStopAcceptance := by
  intro k
  induction k with
  | zero =>
    intro s t _ _ _ h
    cases h
    exact ⟨rfl, rfl, rfl, rfl⟩
  | succ k ih =>
    intro s t hreset hrdy hfull h
    obtain ⟨hstep, hword⟩ := step_full_untaken hreset hrdy hfull
    obtain ⟨u, hu, hrest⟩ := stepN_succ_next.mp h
    cases hstep.symm.trans hu
    rw [acceptedIn_succ_next hstep, hword]
    exact ih _ t (hreset.step hstep) (fun e he => hrdy e (List.mem_of_mem_tail he)) hfull hrest

/-! ### A run without a reset refines sequential execution, whatever edges the host drives after it -/

/-- Sequential execution follows a list of accepted words. -/
theorem State.Refines.runWords {ws : List Word} {s t u : State} (h : s.Refines u) (hrun : runWords ws s = .next t) :
    ∃ v, Machine.runWords ws u = .next v ∧ t.Refines v := by
  induction ws generalizing s u with
  | nil => cases hrun; exact ⟨u, rfl, h⟩
  | cons w ws ih =>
    obtain ⟨m, hm, hrest⟩ := runWords_cons_next.mp hrun
    obtain ⟨m', hm', hrefines⟩ := h.acceptWord hm
    obtain ⟨v, hv, ht⟩ := ih hrefines hrest
    exact ⟨v, runWords_cons_next.mpr ⟨m', hm', hv⟩, ht⟩

/-- An edge without a reset makes the response handshake and then runs the word accepted at it, if there is one. -/
theorem step_runs_acceptedWord {s t : State} {e : HostEdge} {rest : List HostEdge} (hp : s.port = e :: rest)
    (hr : e.rst = false) (h : step s = .next t) :
    runWords s.acceptedWord.toList (State.responseHandshake { s with port := rest } e.rspReady) = .next t := by
  obtain ⟨hp', _⟩ | ⟨_, _, hp', hr', _⟩ | ⟨_, _, hp', _, _, _, hword, haccept⟩ | ⟨_, _, hp', _, _, hword, rfl⟩ :=
    step_cases h <;> rw [hp] at hp' <;> cases hp'
  · rw [hr] at hr'; cases hr'
  · rw [hword]; exact runWords_cons_next.mpr ⟨t, haccept, rfl⟩
  · rw [hword]; rfl

/-- Sequential execution follows a step whose own edge has no reset. -/
theorem State.Refines.step_of_head {s t u : State} (h : s.Refines u) (hreset : ∀ e ∈ s.port.head?, e.rst = false)
    (hstep : Machine.step s = .next t) :
    ∃ v, Machine.runWords s.acceptedWord.toList u = .next v ∧ t.Refines v := by
  cases hp : s.port with
  | nil =>
    cases (step_idle hp).symm.trans hstep
    exact ⟨u, by simp [State.acceptedWord, hp], h⟩
  | cons e rest =>
    exact (h.responseHandshake rest e.rspReady).runWords (step_runs_acceptedWord hp (hreset e (by simp [hp])) hstep)

/-- Sequential execution follows `k` steps none of whose edges has a reset. -/
theorem State.Refines.stepN_of_take {k : Nat} {s t u : State} (h : s.Refines u)
    (hreset : ∀ e ∈ s.port.take k, e.rst = false) (hsteps : Machine.stepN k s = .next t) :
    ∃ v, Machine.runWords (acceptedIn k s) u = .next v ∧ t.Refines v := by
  induction k generalizing s u with
  | zero => cases hsteps; exact ⟨u, rfl, h⟩
  | succ k ih =>
    obtain ⟨m, hstep, hrest⟩ := stepN_succ_next.mp hsteps
    have hhead : ∀ e ∈ s.port.head?, e.rst = false := fun e he =>
      hreset e (List.mem_of_mem_head? (by simpa [List.head?_take] using he))
    have htail : ∀ e ∈ m.port.take k, e.rst = false := fun e he =>
      hreset e (List.mem_of_mem_tail (by rwa [List.tail_take_eq_take_tail, Nat.add_sub_cancel, ← step_port hstep]))
    obtain ⟨v, hv, hm⟩ := h.step_of_head hhead hstep
    obtain ⟨v', hv', ht⟩ := ih hm htail hrest
    rw [acceptedIn_succ_next hstep]
    exact ⟨v', runWords_append_next.mpr ⟨v, hv, hv'⟩, ht⟩

/-- Sequential execution leaves one response per word in RQ, each with the OPC of its word (30_encoding.md R104). -/
theorem runWords_responses {ws : List Word} {s t : State} (h : runWords ws s = .next t) :
    t.taken = s.taken ∧ ∃ rs, t.rq = s.rq ++ rs ∧ rs.map (field · 31 28) = ws.map (field · 31 28) := by
  induction ws generalizing s with
  | nil => cases h; exact ⟨rfl, [], by simp⟩
  | cons w ws ih =>
    obtain ⟨u, hu, hrest⟩ := runWords_cons_next.mp h
    obtain ⟨r, hrq, hopc, _, _, _, htaken⟩ := everyCommandAppendsOneResponse.1 w s u hu
    obtain ⟨htaken', rs, hrq', hopcs⟩ := ih hrest
    exact ⟨htaken'.trans htaken, r :: rs, by rw [hrq', hrq, List.append_assoc]; rfl,
      by rw [List.map_cons, List.map_cons, hopc, hopcs]⟩

/-- A delivered list has the responses of sequential execution, all of them taken, and leaves its engine. -/
theorem State.Delivers.refines {ws : List Word} {k : Nat} {s t u : State} (h : s.Delivers ws k t) (hs : s.Refines u)
    (hrq : u.rq = []) :
    ∃ v, runWords ws u = .next v ∧ t.SameEngine v ∧ t.taken = u.taken ++ v.rq ∧
      v.rq.map (field · 31 28) = ws.map (field · 31 28) := by
  obtain ⟨v, hv, ht⟩ := hs.stepN_of_take h.noReset h.steps
  rw [h.accepted] at hv
  obtain ⟨htaken, rs, hrs, hopcs⟩ := runWords_responses hv
  have hresponses := ht.responses
  rw [hrq, List.nil_append] at hrs
  rw [h.drained, List.append_nil, htaken] at hresponses
  exact ⟨v, hv, ht.engine, hresponses.symm, hrs ▸ hopcs⟩

/-! ### A host that takes each response before it offers the next word (70_reset_and_hazards.md R246) -/

theorem drainPort_cons (w : Word) (ws : List Word) :
    drainPort (w :: ws) = ⟨false, true, w, false⟩ :: ⟨false, false, 0, true⟩ :: drainPort ws := rfl

theorem drainPort_noReset {ws : List Word} {e : HostEdge} (he : e ∈ drainPort ws) : e.rst = false := by
  induction ws with
  | nil => cases he
  | cons w ws ih =>
    rw [drainPort_cons, List.mem_cons, List.mem_cons] at he
    obtain rfl | rfl | he := he
    · rfl
    · rfl
    · exact ih he

/-- The first edge of the pair accepts the word, for which an empty RQ has room. -/
theorem State.Inv.step_drain_offer {s : State} {w : Word} {rest : List HostEdge} (hs : s.Inv) (hrq : s.rq = [])
    (hp : s.port = ⟨false, true, w, false⟩ :: rest) :
    ∃ t r, step s = .next t ∧ s.acceptedWord = some w ∧ t.rq = [r] ∧ t.port = rest := by
  have hroom : s.rq.length < s.params.rspDepth := by rw [hrq]; exact s.params.rspDepth_ge
  obtain ⟨t, ht⟩ := acceptWord_next (hs.withPort rest).engine.lane_lt_sizeMax w
  obtain ⟨r, _, hr⟩ := acceptWord_rq ht
  obtain ⟨_, _, hport⟩ := acceptWord_counters ht
  refine ⟨t, r, ?_, State.acceptedWord_of_room hp rfl rfl hroom, by rw [hr, hrq]; rfl, hport⟩
  rw [step_accept hp rfl rfl hroom, State.responseHandshake_false, ht]

/-- The second edge of the pair takes the one response. -/
theorem step_drain_take {s : State} {r : Word} {rest : List HostEdge} (hrq : s.rq = [r])
    (hp : s.port = ⟨false, false, 0, true⟩ :: rest) :
    ∃ t, step s = .next t ∧ s.acceptedWord = none ∧ t.rq = [] ∧ t.port = rest := by
  refine ⟨_, step_no_accept hp rfl (.inl rfl), by simp [State.acceptedWord, hp], ?_, State.responseHandshake_port _ _⟩
  rw [State.responseHandshake_withPort]
  exact (State.responseHandshake_true_of_cons hrq).2

/-- The two edges per word deliver the whole list, by induction on it. -/
theorem State.Inv.delivers_drainPort {s : State} {ws : List Word} (hs : s.Inv) (hrq : s.rq = [])
    (hp : s.port = drainPort ws) : ∃ t, s.Delivers ws (2 * ws.length) t ∧ t.port = [] := by
  induction ws generalizing s with
  | nil => exact ⟨s, ⟨rfl, by simp, rfl, hrq⟩, hp⟩
  | cons w ws ih =>
    obtain ⟨m, r, hoffer, hword, hmrq, hmp⟩ := hs.step_drain_offer hrq hp
    obtain ⟨m', htake, hnone, hmrq', hmp'⟩ := step_drain_take hmrq hmp
    have hinv := stepKeepsInvariant m m' (stepKeepsInvariant s m hs hoffer) htake
    obtain ⟨t, ⟨hsteps, _, haccepted, hdrained⟩, hport⟩ := ih hinv hmrq' hmp'
    refine ⟨t, ⟨?_, fun e he => ?_, ?_, hdrained⟩, hport⟩
    · exact stepN_succ_next.mpr ⟨m, hoffer, stepN_succ_next.mpr ⟨m', htake, hsteps⟩⟩
    · exact drainPort_noReset (hp ▸ List.mem_of_mem_take he)
    · rw [List.length_cons, Nat.mul_succ, acceptedIn_succ_next hoffer, acceptedIn_succ_next htake, hword, hnone,
        haccepted]
      rfl

/-- Settles O32: the list is delivered, and what a delivered list leaves is what sequential execution leaves. -/
theorem drainedRunEndsWithEveryResponse : Obligations.DrainedRunEndsWithEveryResponse := by
  intro s ws hs hrq hp
  obtain ⟨t, hdelivers, hport⟩ := hs.delivers_drainPort hrq hp
  obtain ⟨u, hu, hengine, htaken, hopcs⟩ := hdelivers.refines (.refl s) hrq
  have hlength : u.rq.length = ws.length := by simpa using congrArg List.length hopcs
  exact ⟨t, u, hdelivers, hu, hport, htaken, hlength, hengine.size.symm, hengine.hashCount.symm, hengine.acc.symm,
    hengine.bits.symm⟩

/-! ### A run from the reset state (70_reset_and_hazards.md R247) -/

/-- The start of a run is the reset state but for the edges to come, which sequential execution does not see. -/
theorem State.StartsRun.refines {s : State} (h : s.StartsRun) : s.Refines (State.resetWith s.params) := by
  obtain ⟨p, port, rfl⟩ : ∃ p port, s = { State.resetWith p with port := port } := ⟨_, _, h⟩
  exact ⟨⟨rfl, rfl, rfl, rfl, rfl⟩, rfl, rfl⟩

/-- Settles O45: an ended run delivers its list from the reset state; a host that takes every response ends the run of any
list; and a reset edge leads to the start of a run. -/
theorem endedRunObservesEveryResponse : Obligations.EndedRunObservesEveryResponse := by
  refine ⟨fun s t ws k h => ?_, fun p ws => ?_, fun s e rest hp hr => ⟨_, step_reset hp hr, rfl, rfl, rfl⟩⟩
  · obtain ⟨u, hu, _, htaken, hopcs⟩ := h.delivers.refines (State.StartsRun.refines h.starts) rfl
    exact ⟨u, hu, htaken, by rw [htaken]; exact hopcs⟩
  · obtain ⟨t, hdelivers, _⟩ := ((resetMeetsInvariant p).withPort (drainPort ws)).delivers_drainPort rfl rfl
    exact ⟨t, rfl, hdelivers⟩

end Sys2Proof.Machine
